-- ==== Sys2Proof/Word.lean ====
section
/-!
DEFINITION. The widths of CORE: `POS_W = ARG_W = CMP_W = 32` (R7, decision D5), `PHASE_W = 2` (R7, R21), and the
40-bit command word (R72).
-/

namespace Sys2Proof

/-- A 32-bit register: `position` and the operands read it as two's complement, the timer registers as unsigned. -/
abbrev Word := BitVec 32

/-- A 2-bit sample of an encoder's lines: bit 1 = line A, bit 0 = line B (R8, R21). -/
abbrev Phase := BitVec 2

/-- The word that spells one command (R72). -/
abbrev CommandWord := BitVec 40

end Sys2Proof
end

