-- ==== Sys2Proof/Syntax.lean ====
section
/-!
DEFINITION. The seven commands of CORE (R12, R75), the two ports (R70), the two PWM timers (R31) and the agents that
act on CORE (R5). One constructor of `Instr` per row of spec/opcode_table.json.
-/

namespace Sys2Proof

/-- The two command inputs (R70). The port is the context of the command (R172). -/
inductive Port where
  | edge
  | host
  deriving DecidableEq, Repr

/-- The two PWM timers (R31): M drives both motor channels, S all three servo channels. -/
inductive TimerId where
  | motor
  | servo
  deriving DecidableEq, Repr

/-- The agents whose steps make up a run (R5). -/
inductive Agent where
  | edge
  | host
  | timer (t : TimerId)
  deriving DecidableEq, Repr

/-- A command with its decoded operands (R12, R73). The `id` is the 2-bit field, so it can name instances the hardware
lacks (R74); `percent` and `degree` are signed integers, and `Instr.wellFormed` bounds them to `ARG_W` bits (R81). -/
inductive Instr where
  /-- `decoder.initialize()` -/
  | qinit
  /-- `decoder.onEdge(encoderId, rawPinPairValue)` -/
  | qedge (id : Fin 4) (raw : Phase)
  /-- `decoder.readPosition(encoderId)` -/
  | qread (id : Fin 4)
  /-- `actuator.initializeMotorTimer()` -/
  | minit
  /-- `actuator.initializeServoTimer()` -/
  | sinit
  /-- `actuator.setMotorDuty(motorId, percent)` -/
  | mduty (id : Fin 4) (percent : Int)
  /-- `actuator.moveServo(servoId, degree)` -/
  | smove (id : Fin 4) (degree : Int)
  deriving DecidableEq, Repr

end Sys2Proof
end

