-- ==== Sys2Proof/Config.lean ====
section
/-!
DEFINITION. The constants of one instance of CORE (R7, R26) and the power-up contents of the elements the spec leaves
without a value at reset (R37, D8). The machine runs under `Config.actual`, a constant without a body: nothing can be
proved of it but what its type says, and its type admits exactly the values R7 and tier 1 of R25 admit.
-/

namespace Sys2Proof

/-- One entry of the transition table: -1, 0 or +1, and nothing else (tier 1 of R25). -/
inductive Delta where
  | minusOne
  | zero
  | plusOne
  deriving DecidableEq, Repr, Inhabited

/-- The parameters of R7. Fields whose name ends in `Less1` hold the parameter minus one, so that the range R7 gives
is the range of the type. -/
structure Config where
  /-- `TT`, flat, indexed by `4 * previous + new` (R24, R26). -/
  tt : Vector Delta 16
  /-- `TICKS_PER_US` minus 1: `1 <= TICKS_PER_US < 2^16`. -/
  ticksPerUsLess1 : Fin 65535
  /-- `MOTOR_PERIOD_TICKS` minus 1: `1 <= value < 2^32`. -/
  motorPeriodLess1 : Fin 4294967295
  /-- `SERVO_PERIOD_TICKS` minus 1: `1 <= value < 2^32`. -/
  servoPeriodLess1 : Fin 4294967295
  /-- `SERVO_OFFSET_TICKS`: `0 <= value <= 2^32 - 180` (D27). -/
  servoOffset : Fin 4294967117
  /-- `MOTOR_DEFAULT_PERCENT[m]` in `[0,100]`. -/
  motorDefault : Vector (Fin 101) 2
  /-- `SERVO_DEFAULT_DEGREE[s]` in `[0,180)` (D26). -/
  servoDefault : Vector (Fin 180) 3
  /-- `MOTOR_MCTRL_INIT`, uninterpreted. -/
  motorMctrlInit : Word
  /-- `MOTOR_EMCTRL_INIT`, uninterpreted. -/
  motorEmctrlInit : Word
  /-- `SERVO_MCTRL_INIT`, uninterpreted. -/
  servoMctrlInit : Word
  /-- `SERVO_EMCTRL_INIT`, uninterpreted. -/
  servoEmctrlInit : Word
  deriving DecidableEq, Repr, Inhabited

/-- The parameters of the instance the machine is (R7: "fixed before reset and no command changes it"). No body:
every statement about the machine holds of every instance (log 2). -/
opaque Config.actual : Config

/-- `TT_DEFAULT` (R26), the spec's own instance of the table; not claimed to be the firmware's. -/
def ttDefault : Vector Delta 16 :=
  #v[.zero, .plusOne, .minusOne, .zero,
     .minusOne, .zero, .zero, .plusOne,
     .plusOne, .zero, .zero, .minusOne,
     .zero, .minusOne, .plusOne, .zero]

/-- The illustrative configuration `CFG_EX` of 41_actuator_driver.md with `TT_DEFAULT`. Only tests and worked examples
use it; the machine does not. -/
def Config.cfgEx : Config where
  tt := ttDefault
  ticksPerUsLess1 := 24
  motorPeriodLess1 := 1249
  servoPeriodLess1 := 19999
  servoOffset := 1760
  motorDefault := #v[50, 50]
  servoDefault := #v[90, 90, 90]
  motorMctrlInit := 0
  motorEmctrlInit := 0
  servoMctrlInit := 0
  servoEmctrlInit := 0

/-! Power-up contents (R37: "holds no value ... It does not mean zero"; R191). DESIGN CHOICE, log 1: each element holds
the value of a constant without a body. -/

opaque Config.powerUpPhase : Vector Phase 2
opaque Config.powerUpPosition : Vector Word 2
opaque Config.powerUpMotorCmd : Vector Word 2
opaque Config.powerUpServoCmd : Vector (Fin 180) 3
opaque Config.powerUpMotorCmp : Vector Word 2
opaque Config.powerUpServoCmp : Vector Word 3
opaque Config.powerUpMotorAct : Vector Word 2
opaque Config.powerUpServoAct : Vector Word 3
opaque Config.powerUpPeriod : TimerId → Word
opaque Config.powerUpMctrl : TimerId → Word
opaque Config.powerUpEmctrl : TimerId → Word

end Sys2Proof
end

