-- ==== Sys2Proof/Machine/Primitives.lean ====
section
/-!
DEFINITION. Bit fields (R8) and the integer primitives of R9, over the mathematical integers, and the two ways a rule
stores an integer into a 32-bit register.
-/

namespace Sys2Proof

/-- `w[hi:lo]`, read as an unsigned integer (R8). -/
def bits (w : CommandWord) (hi lo : Nat) : Nat := w.toNat / 2 ^ lo % 2 ^ (hi - lo + 1)

/-- `sext_n(u)`: the signed value of the n-bit field `u` (R9). -/
def sext (n u : Nat) : Int := if u < 2 ^ (n - 1) then (u : Int) else (u : Int) - 2 ^ n

/-- `zext_n(u)`: the unsigned value of the n-bit field `u` (R9). -/
def zext (_n u : Nat) : Nat := u

/-- `wrap_n(v)`: the representative of `v` modulo `2^n` in `[-2^(n-1), 2^(n-1))` (R9). -/
def wrap (n : Nat) (v : Int) : Int := if v % 2 ^ n < 2 ^ (n - 1) then v % 2 ^ n else v % 2 ^ n - 2 ^ n

/-- `trunc_n(v)`: the representative of `v` modulo `2^n` in `[0, 2^n)` (R9). -/
def trunc (n : Nat) (v : Int) : Nat := (v % 2 ^ n).toNat

/-- `emod(a, n)`, `n > 0`: the Euclidean remainder, in `[0, n)` (R9). -/
def emod (a n : Int) : Int := a % n

/-- `tdiv(a, b)`, `b > 0`: the quotient rounded toward zero (R9, D10). -/
def tdiv (a b : Int) : Int := if 0 ≤ a then a / b else -(-a / b)

/-- Store into a signed 32-bit register: `wrap_32`. -/
def storeSigned (v : Int) : Word := BitVec.ofInt 32 (wrap 32 v)

/-- Store into an unsigned 32-bit register: `trunc_32`. -/
def storeUnsigned (v : Int) : Word := BitVec.ofNat 32 (trunc 32 v)

end Sys2Proof
end

