-- ==== Sys2Proof/WellFormed.lean ====
section
/-!
DEFINITION. Which commands can be written down: the operand ranges the assembler of R81 accepts. The ranges of `id`
and `raw` are in their types; a nonexistent `id` is well-formed, and executing it is another matter (R74).
-/

namespace Sys2Proof

/-- `-2^31 .. 2^31 - 1`, the range of `percent` and `degree` (R81, R125, R128). -/
def inArgRange (v : Int) : Bool := decide (-2147483648 ≤ v) && decide (v ≤ 2147483647)

/-- The operands lie in the ranges of R81. -/
def Instr.wellFormed : Instr → Bool
  | .qinit => true
  | .qedge _ _ => true
  | .qread _ => true
  | .minit => true
  | .sinit => true
  | .mduty _ percent => inArgRange percent
  | .smove _ degree => inArgRange degree

end Sys2Proof
end

