-- ==== Sys2Proof/Decode.lean ====
section
/-!
DEFINITION. Format C (R72), the opcode table (R75), the decoder of R78, total on all 40-bit words, and the encoder of
R72 and R81.
-/

namespace Sys2Proof

/-- Why a word spells no command (R79). All three are the verdict `InvalidWord`. -/
inductive Reject where
  /-- `op` is 0 or 8..15 (R78 step 1). -/
  | reservedOpcode
  /-- `w[35:34]` is not 0 (R78 step 2). -/
  | zNotZero
  /-- A must-be-zero part of `id` or `arg` is not 0 (R78 steps 3 to 5). -/
  | mustBeZeroSet
  deriving DecidableEq, Repr

/-- The opcode of a command (R75). -/
def Instr.opcode : Instr → Nat
  | .qinit => 1
  | .qedge _ _ => 2
  | .qread _ => 3
  | .minit => 4
  | .sinit => 5
  | .mduty _ _ => 6
  | .smove _ _ => 7

/-- The mnemonic of a command (R12, R75). -/
def Instr.mnemonic : Instr → String
  | .qinit => "QINIT"
  | .qedge _ _ => "QEDGE"
  | .qread _ => "QREAD"
  | .minit => "MINIT"
  | .sinit => "SINIT"
  | .mduty _ _ => "MDUTY"
  | .smove _ _ => "SMOVE"

/-- The port a command is accepted on (R75, R77): QEDGE on EDGE, every other command on HOST. -/
def Instr.port : Instr → Port
  | .qinit => .host
  | .qedge _ _ => .edge
  | .qread _ => .host
  | .minit => .host
  | .sinit => .host
  | .mduty _ _ => .host
  | .smove _ _ => .host

/-- The `id` field, `w[33:32]` (R72). -/
def idField (w : CommandWord) : Fin 4 := Fin.ofNat 4 (bits w 33 32)

/-- The `raw` operand of QEDGE: `arg[1:0]`, zero-extended (R73). -/
def rawField (w : CommandWord) : Phase := BitVec.ofNat 2 (zext 2 (bits w 1 0))

/-- The signed operand of MDUTY and SMOVE: `sext_32(arg)` (R73). -/
def signedArg (w : CommandWord) : Int := sext 32 (bits w 31 0)

/-- Answer `i` if the must-be-zero field reads 0, and reject otherwise (R79). -/
def whenZero (field : Nat) (i : Instr) : Except Reject Instr :=
  if field = 0 then .ok i else .error .mustBeZeroSet

/-- The decoding procedure of R78. -/
def decode (w : CommandWord) : Except Reject Instr :=
  if bits w 39 36 = 0 ∨ 8 ≤ bits w 39 36 then .error .reservedOpcode
  else if bits w 35 34 ≠ 0 then .error .zNotZero
  else match bits w 39 36 with
    | 1 => whenZero (bits w 33 0) .qinit
    | 2 => whenZero (bits w 31 2) (.qedge (idField w) (rawField w))
    | 3 => whenZero (bits w 31 0) (.qread (idField w))
    | 4 => whenZero (bits w 33 0) .minit
    | 5 => whenZero (bits w 33 0) .sinit
    | 6 => .ok (.mduty (idField w) (signedArg w))
    | 7 => .ok (.smove (idField w) (signedArg w))
    | _ => .error .reservedOpcode

/-- The word with `z = 0`: `op * 2^36 + id * 2^32 + arg` (R72). -/
def formatC (op id arg : Nat) : CommandWord := BitVec.ofNat 40 (op * 2 ^ 36 + id * 2 ^ 32 + arg)

/-- The word of a well-formed command (R72, R75, R81). -/
def encode : Instr → CommandWord
  | .qinit => formatC 1 0 0
  | .qedge id raw => formatC 2 id.val raw.toNat
  | .qread id => formatC 3 id.val 0
  | .minit => formatC 4 0 0
  | .sinit => formatC 5 0 0
  | .mduty id percent => formatC 6 id.val (trunc 32 percent)
  | .smove id degree => formatC 7 id.val (trunc 32 degree)

/-- One row of the opcode map: a word `w` spells the command exactly when `w AND mask = pattern` (R75). -/
structure OpcodeRow where
  mnemonic : String
  pattern : CommandWord
  mask : CommandWord
  deriving DecidableEq, Repr

/-- The seven rows of R75. -/
def opcodeTable : List OpcodeRow :=
  [⟨"QINIT", 0x1000000000#40, 0xFFFFFFFFFF#40⟩,
   ⟨"QEDGE", 0x2000000000#40, 0xFCFFFFFFFC#40⟩,
   ⟨"QREAD", 0x3000000000#40, 0xFCFFFFFFFF#40⟩,
   ⟨"MINIT", 0x4000000000#40, 0xFFFFFFFFFF#40⟩,
   ⟨"SINIT", 0x5000000000#40, 0xFFFFFFFFFF#40⟩,
   ⟨"MDUTY", 0x6000000000#40, 0xFC00000000#40⟩,
   ⟨"SMOVE", 0x7000000000#40, 0xFC00000000#40⟩]

/-- What the decoder reads from a word numbered as spec/opcode_table.json numbers it. A command is one 40-bit word with
bit 0 least significant (R8, R52), so no byte order arises; bits the table leaves out are 0. -/
def decodeTableWord (nbits w : Nat) : Option Instr :=
  if nbits ≤ 40 ∧ w < 2 ^ nbits then (decode (BitVec.ofNat 40 w)).toOption else none

end Sys2Proof
end

