-- ==== Sys2Proof/Machine/State.lean ====
section
/-!
DEFINITION. All the state of CORE (10_state.md section 1), the outstanding events of its agents, and the state after
reset (R37, R38, R190). QDEC and PWMX share no element (R1), and neither do the two timers (R31).
-/

namespace Sys2Proof.Machine

/-- QDEC (R20 to R23). -/
structure Qdec where
  /-- `q_init`: QINIT has been executed since reset (R23). -/
  init : Bool
  /-- `phase[i]`: the last sample of encoder `i`'s lines (R21). -/
  phase : Vector Phase 2
  /-- `position[i]`: the signed accumulator of encoder `i` (R22). -/
  position : Vector Word 2
  deriving DecidableEq, Repr

/-- One PWM timer with its `n` channels (R27 to R33); `α` is the type of a commanded value. -/
structure Pwm (n : Nat) (α : Type) where
  /-- `m_init` / `s_init` (R33). -/
  init : Bool
  /-- `m_cmd` / `s_cmd`: the last commanded value of each channel (R28). -/
  cmd : Vector α n
  /-- `T_PERIOD` (R30). -/
  period : Word
  /-- `T_CMP[c]`: the compare registers (R29, R30). -/
  cmp : Vector Word n
  /-- `T_CMP_ACT[c]`: the compare values active in the current PWM period (R32). -/
  cmpAct : Vector Word n
  /-- `T_MCTRL` (R30). -/
  mctrl : Word
  /-- `T_EMCTRL` (R30). -/
  emctrl : Word
  /-- `T_CEN`: 1 = the counter runs (R30). -/
  cen : BitVec 1
  deriving DecidableEq, Repr

/-- One input of CORE (R70, R71): a word on a port, or a period boundary of a timer. -/
inductive Event where
  | command (port : Port) (word : CommandWord)
  | boundary (timer : TimerId)
  deriving DecidableEq, Repr

/-- The whole machine. The first three fields are the state the spec gives CORE; the last three are the model's own and
carry its interface. -/
structure State where
  qdec : Qdec
  /-- Timer M. A commanded duty is a signed 32-bit value (R28). -/
  motor : Pwm 2 Word
  /-- Timer S. A commanded angle is an integer in `[0,180)` (R28). -/
  servo : Pwm 3 (Fin 180)
  /-- The port the command being executed came in on: the other half of the pair (port, word) of R70 (log 5). -/
  port : Port
  /-- The events not yet taken, in the total order of R58, the next one first (log 3). -/
  inputs : List Event
  /-- The read responses put on `host_rdata`, oldest first (R70, log 4). -/
  responses : List Word
  deriving DecidableEq, Repr

/-- The faults of R161. Each ends the run where the spec gives no next state (R163). -/
inductive Fault where
  /-- Code 2. Raised by every command's first `require`: QEDGE on the HOST port, or any other command on the EDGE
  port (R77, D21). Safe: the model stops where the source says nothing. -/
  | wrongPort
  /-- Code 3. Raised by QEDGE and QREAD with `q_init` false, MDUTY with `m_init` false, SMOVE with `s_init` false
  (R161, D8). Safe: the model stops where the source's precondition is broken. -/
  | uninitialised
  /-- Code 4. Raised by QEDGE, QREAD, MDUTY with `id` 2 or 3 and SMOVE with `id` 3: "undefined behavior" (R74, R161,
  D9). Safe. -/
  | badId
  deriving DecidableEq, Repr

/-- The refusals. -/
inductive Refusal where
  /-- Code 1, `InvalidWord` (R79, R161). Raised when a word spells no command, on either port. Safe: the spec gives the
  state after it no meaning. -/
  | invalidWord (why : Reject)
  /-- An instruction without a meaning. No arm of `exec` raises it. Safe. -/
  | notModelled (mnemonic : String)
  deriving DecidableEq, Repr

/-- What a command or a step answers (R11). -/
abbrev Result := Host.Outcome State Fault Refusal

/-- The machine right after reset (R37, R38, R190): the three validity flags false, both counter enables 0, nothing
outstanding. The elements the spec leaves without a value hold the bodiless constants of Config (log 1). -/
def State.reset : State where
  qdec := { init := false, phase := Config.powerUpPhase, position := Config.powerUpPosition }
  motor :=
    { init := false
      cmd := Config.powerUpMotorCmd
      period := Config.powerUpPeriod .motor
      cmp := Config.powerUpMotorCmp
      cmpAct := Config.powerUpMotorAct
      mctrl := Config.powerUpMctrl .motor
      emctrl := Config.powerUpEmctrl .motor
      cen := 0 }
  servo :=
    { init := false
      cmd := Config.powerUpServoCmd
      period := Config.powerUpPeriod .servo
      cmp := Config.powerUpServoCmp
      cmpAct := Config.powerUpServoAct
      mctrl := Config.powerUpMctrl .servo
      emctrl := Config.powerUpEmctrl .servo
      cen := 0 }
  port := .host
  inputs := []
  responses := []

end Sys2Proof.Machine
end

