-- ==== Sys2Proof/Machine/Flags.lean ====
section
/-!
DEFINITION. The `require` lines of the instruction rules (R10) over the port and the validity flags. CORE has no
condition codes and no status flag but `q_init`, `m_init` and `s_init` (R35), so no command computes a flag from a
result; the three flags are set by QINIT, MINIT and SINIT and read here.
-/

namespace Sys2Proof.Machine

/-- `require c else fault f` (R10): a false condition ends the command with no write and no response. -/
def require (c : Bool) (f : Fault) (k : Result) : Result := if c then k else .fault f

/-- `require port = p else fault WrongPort` (R77, R161). -/
def requirePort (p : Port) (s : State) (k : Result) : Result := require (decide (s.port = p)) .wrongPort k

/-- `require q_init else fault Uninitialised` (R23). -/
def requireQdec (s : State) (k : Result) : Result := require s.qdec.init .uninitialised k

/-- `require m_init else fault Uninitialised` (R33). -/
def requireMotor (s : State) (k : Result) : Result := require s.motor.init .uninitialised k

/-- `require s_init else fault Uninitialised` (R33). -/
def requireServo (s : State) (k : Result) : Result := require s.servo.init .uninitialised k

end Sys2Proof.Machine
end

