-- ==== Sys2Proof/Machine/Operands.lean ====
section
/-!
DEFINITION. The operand forms of the commands: the entry of the transition table (R24), the parameters as integers
(R7), the two mappings from a commanded value to timer ticks (R120), and the selection of an instance by `id` (R74).
-/

namespace Sys2Proof

/-- The integer a table entry stands for. -/
def Delta.toInt : Delta → Int
  | .minusOne => -1
  | .zero => 0
  | .plusOne => 1

/-- `TT[p][n]`: previous phase first, new phase second (R24). -/
def Config.delta (c : Config) (p n : Phase) : Int :=
  (c.tt[4 * p.toNat + n.toNat]'(by have := p.isLt; have := n.isLt; omega)).toInt

/-- `TICKS_PER_US`. -/
def Config.ticksPerUs (c : Config) : Int := c.ticksPerUsLess1.val + 1

/-- `MOTOR_PERIOD_TICKS`. -/
def Config.motorPeriod (c : Config) : Int := c.motorPeriodLess1.val + 1

/-- `SERVO_PERIOD_TICKS`. -/
def Config.servoPeriod (c : Config) : Int := c.servoPeriodLess1.val + 1

/-- `SERVO_OFFSET_TICKS`. -/
def Config.servoOffsetTicks (c : Config) : Int := c.servoOffset.val

/-- `MOTOR_DEFAULT_PERCENT[m]`. -/
def Config.motorDefaultPercent (c : Config) (m : Fin 2) : Int := (c.motorDefault[m]).val

/-- `SERVO_DEFAULT_DEGREE[s]`. -/
def Config.servoDefaultDegree (c : Config) (s : Fin 3) : Int := (c.servoDefault[s]).val

/-- `motor_ticks(percent) = tdiv(TICKS_PER_US * percent, 2)` (R120). -/
def motorTicks (c : Config) (percent : Int) : Int := tdiv (c.ticksPerUs * percent) 2

/-- `servo_ticks(degree) = emod(degree, 180) + SERVO_OFFSET_TICKS` (R120). -/
def servoTicks (c : Config) (degree : Int) : Int := emod degree 180 + c.servoOffsetTicks

/-- The commanded angle of SMOVE: `emod(degree, 180)` (R128). -/
def wrapDegree (degree : Int) : Fin 180 := Fin.ofNat 180 (emod degree 180).toNat

namespace Machine

/-- The compare value of a stored motor command: always recomputed from the commanded value (R29). -/
def motorCompare (c : Config) (cmd : Word) : Word := storeUnsigned (motorTicks c cmd.toInt)

/-- The compare value of a stored servo command (R29). -/
def servoCompare (c : Config) (cmd : Fin 180) : Word := storeUnsigned (servoTicks c cmd.val)

/-- `require id in {0, .., n-1} else fault BadId` (R74), and then go on with the instance. -/
def withInstance (n : Nat) (id : Fin 4) (k : Fin n → Result) : Result :=
  if h : id.val < n then k ⟨id.val, h⟩ else .fault .badId

end Machine
end Sys2Proof
end

