-- ==== Sys2Proof/Machine/Ops.lean ====
section
/-!
DEFINITION. The named operations over the state elements. All reads of an operation see the state before the command
and all its writes are applied together (R10). CORE takes no exception and returns from none (R160, R171), so there is
no operation for either; memory does not exist (R50).
-/

namespace Sys2Proof.Machine

/-- QDEC after QINIT, whatever it was before (R90). -/
def Qdec.initialised : Qdec := { init := true, phase := #v[0, 0], position := #v[0, 0] }

/-- One edge of encoder `i` (R92): the table entry for (stored phase, new sample) is added to the accumulator with
`wrap_32` (R94), and the phase follows the sample. -/
def Qdec.edge (c : Config) (q : Qdec) (i : Fin 2) (raw : Phase) : Qdec :=
  { q with
    position := q.position.set i (storeSigned ((q.position[i]).toInt + c.delta q.phase[i] raw))
    phase := q.phase.set i raw }

/-- The bits of `position[i]`: `trunc_32(position[i])` (R96). -/
def Qdec.read (q : Qdec) (i : Fin 2) : Word := storeUnsigned (q.position[i]).toInt

/-- `respond(v)`: put `v` on the read-data output of the HOST port (R10, R70). -/
def State.respond (s : State) (v : Word) : State := { s with responses := s.responses ++ [v] }

/-- The initialisation of a timer (R121, R123): period, control words, every channel at its default with the compare
value recomputed, counter enabled, flag set. The active compare values are not written (R122, D30). -/
def Pwm.initialise {n : Nat} {α : Type} (p : Pwm n α) (ticks : α → Word) (period mctrl emctrl : Word)
    (defaults : Fin n → α) : Pwm n α :=
  { p with
    period := period
    mctrl := mctrl
    emctrl := emctrl
    cmd := Vector.ofFn defaults
    cmp := Vector.ofFn fun ch => ticks (defaults ch)
    cen := 1
    init := true }

/-- Command one channel (R125, R128): the commanded value and the compare value recomputed from it; nothing else. -/
def Pwm.command {n : Nat} {α : Type} (p : Pwm n α) (ticks : α → Word) (ch : Fin n) (v : α) : Pwm n α :=
  { p with cmd := p.cmd.set ch v, cmp := p.cmp.set ch (ticks v) }

/-- All channels of one timer take their compare values in the same step (R131). -/
def Pwm.latch {n : Nat} {α : Type} (p : Pwm n α) : Pwm n α := { p with cmpAct := p.cmp }

/-- Run a second command on the state the first one leaves; a fault or a refusal stays (R163). -/
def andThen (r : Result) (k : State → Result) : Result :=
  match r with
  | .next s => k s
  | .fault f => .fault f
  | .refused e => .refused e

end Sys2Proof.Machine
end

