-- ==== Sys2Proof/Machine/Boundary.lean ====
section
/-!
DEFINITION. PBOUND, the PWM period boundary (R131, R132): an environment step of a timer, no command. While `T_CEN = 0`
the spec has no such step and calls it no fault; an event of that kind is dropped (log 7).
-/

namespace Sys2Proof.Machine

/-- PBOUND T is enabled exactly when `T_CEN = 1` (R131). -/
def boundaryEnabled (t : TimerId) (s : State) : Bool :=
  match t with
  | .motor => decide (s.motor.cen = 1)
  | .servo => decide (s.servo.cen = 1)

/-- PBOUND M (R131). -/
def boundaryMotor (s : State) : State :=
  if boundaryEnabled .motor s then { s with motor := s.motor.latch } else s

/-- PBOUND S (R131). -/
def boundaryServo (s : State) : State :=
  if boundaryEnabled .servo s then { s with servo := s.servo.latch } else s

/-- PBOUND T. -/
def boundary (t : TimerId) (s : State) : State :=
  match t with
  | .motor => boundaryMotor s
  | .servo => boundaryServo s

end Sys2Proof.Machine
end

