-- ==== Sys2Proof/Machine/Actuator.lean ====
section
/-!
DEFINITION. The actuator driver commands MINIT, SINIT, MDUTY and SMOVE (41_actuator_driver.md). Each is written for an
arbitrary configuration (R7) and executed under `Config.actual`.
-/

namespace Sys2Proof.Machine

/-- MINIT under configuration `c` (R121). -/
def minitUnder (c : Config) (s : State) : Result :=
  requirePort .host s <| .next
    { s with
      motor := s.motor.initialise (motorCompare c) (storeUnsigned c.motorPeriod) c.motorMctrlInit c.motorEmctrlInit
        (fun m => storeSigned (c.motorDefaultPercent m)) }

/-- MINIT (R121, R122). -/
def execMinit (s : State) : Result := minitUnder Config.actual s

/-- SINIT under configuration `c` (R123). -/
def sinitUnder (c : Config) (s : State) : Result :=
  requirePort .host s <| .next
    { s with
      servo := s.servo.initialise (servoCompare c) (storeUnsigned c.servoPeriod) c.servoMctrlInit c.servoEmctrlInit
        (fun ch => c.servoDefault[ch]) }

/-- SINIT (R123, R124). -/
def execSinit (s : State) : Result := sinitUnder Config.actual s

/-- MDUTY under configuration `c` (R125): no range check on `percent` (R126). -/
def mdutyUnder (c : Config) (id : Fin 4) (percent : Int) (s : State) : Result :=
  requirePort .host s <| requireMotor s <| withInstance 2 id fun m =>
    .next { s with motor := s.motor.command (motorCompare c) m (storeSigned percent) }

/-- MDUTY (R125 to R127). -/
def execMduty (id : Fin 4) (percent : Int) (s : State) : Result := mdutyUnder Config.actual id percent s

/-- SMOVE under configuration `c` (R128): the degree is wrapped, never clamped (R129). -/
def smoveUnder (c : Config) (id : Fin 4) (degree : Int) (s : State) : Result :=
  requirePort .host s <| requireServo s <| withInstance 3 id fun ch =>
    .next { s with servo := s.servo.command (servoCompare c) ch (wrapDegree degree) }

/-- SMOVE (R128 to R130). -/
def execSmove (id : Fin 4) (degree : Int) (s : State) : Result := smoveUnder Config.actual id degree s

end Sys2Proof.Machine
end

