-- ==== Sys2Proof/Machine/Quadrature.lean ====
section
/-!
DEFINITION. The quadrature decoder commands QINIT, QEDGE and QREAD (40_quadrature_decoder.md).
-/

namespace Sys2Proof.Machine

/-- QINIT (R90, R91): resets both encoders at once, may be issued again at any time. -/
def execQinit (s : State) : Result :=
  requirePort .host s <| .next { s with qdec := Qdec.initialised }

/-- QEDGE under the table of any configuration `c` (R26: every rule is for an arbitrary `TT`). -/
def qedgeUnder (c : Config) (id : Fin 4) (raw : Phase) (s : State) : Result :=
  requirePort .edge s <| requireQdec s <| withInstance 2 id fun i =>
    .next { s with qdec := s.qdec.edge c i raw }

/-- QEDGE (R92 to R95). -/
def execQedge (id : Fin 4) (raw : Phase) (s : State) : Result := qedgeUnder Config.actual id raw s

/-- QREAD (R96): one response, no change of state. -/
def execQread (id : Fin 4) (s : State) : Result :=
  requirePort .host s <| requireQdec s <| withInstance 2 id fun i => .next (s.respond (s.qdec.read i))

end Sys2Proof.Machine
end

