-- ==== Sys2Proof/Machine/Dispatch.lean ====
section
/-!
DEFINITION. One arm per command (R75): every command has its meaning.
-/

namespace Sys2Proof.Machine

def exec (i : Instr) (s : State) : Host.Outcome State Fault Refusal :=
  match i with
  | .qinit => Sys2Proof.Machine.execQinit s
  | .qedge id raw => Sys2Proof.Machine.execQedge id raw s
  | .qread id => Sys2Proof.Machine.execQread id s
  | .minit => Sys2Proof.Machine.execMinit s
  | .sinit => Sys2Proof.Machine.execSinit s
  | .mduty id percent => Sys2Proof.Machine.execMduty id percent s
  | .smove id degree => Sys2Proof.Machine.execSmove id degree s

end Sys2Proof.Machine
end

