-- ==== Sys2Proof/Machine/Ports.lean ====
section
/-!
DEFINITION. The command inputs of CORE (R70, R71): what one event does, and the port a word is presented on when it is
placed for the machine to take next.
-/

namespace Sys2Proof.Machine

/-- Take one event. A word is decoded and the command executed in the context of its port (R70, R78); a word that spells
no command is refused, on either port, before anything else is looked at (R79, R162). -/
def deliver (e : Event) (s : State) : Result :=
  match e with
  | .command p w =>
    match decode w with
    | .ok i => exec i { s with port := p }
    | .error why => .refused (.invalidWord why)
  | .boundary t => .next (boundary t s)

/-- The port on which the opcode map puts a word (R75); HOST for a word that spells nothing. -/
def portFor (w : CommandWord) : Port :=
  match decode w with
  | .ok i => i.port
  | .error _ => .host

/-- `s` with one more event outstanding before all others. -/
def State.present (s : State) (e : Event) : State := { s with inputs := e :: s.inputs }

end Sys2Proof.Machine
end

