-- ==== Sys2Proof/Machine/Step.lean ====
section
/-!
DEFINITION. One step of the total order of R58: the next outstanding event is taken. CORE fetches no program (R34); its
commands are presented on its ports.
-/

namespace Sys2Proof.Machine

/-- Take the next outstanding event (R6, R58). With nothing outstanding CORE waits and nothing changes (R192, log 3). -/
def step (s : State) : Host.Outcome State Fault Refusal :=
  match s.inputs with
  | [] => .next s
  | e :: rest => deliver e { s with inputs := rest }

/-- `s` with the command word presented, on the port the opcode map gives it, as the next event to be taken. -/
def State.withFetchWord (s : State) (_nbits w : Nat) : State :=
  s.present (.command (portFor (BitVec.ofNat 40 w)) (BitVec.ofNat 40 w))

end Sys2Proof.Machine
end

