-- ==== Sys2Proof/Machine/Assembler.lean ====
section
/-!
DEFINITION. The assembler syntax of R81: one command a line, mnemonic in capitals, decimal operands separated by commas,
an optional port prefix, `;` starts a comment, `PBOUND M` and `PBOUND S` for the environment step. Text is a list of
characters. Anything else, an operand out of range among it, is an assembly error.
-/

namespace Sys2Proof.Machine

/-- The pieces of a text between the separators. -/
def splitAtChar (sep : Char) : List Char → List (List Char)
  | [] => [[]]
  | c :: cs =>
    match splitAtChar sep cs with
    | [] => [[c]]
    | w :: ws => if c = sep then [] :: w :: ws else (c :: w) :: ws

/-- A text without the blanks at its two ends. -/
def trim (cs : List Char) : List Char :=
  ((cs.dropWhile fun c => c == ' ').reverse.dropWhile fun c => c == ' ').reverse

/-- A decimal numeral. -/
def parseNat (cs : List Char) : Option Nat :=
  if cs ≠ [] ∧ cs.all (fun c => decide ('0' ≤ c) && decide (c ≤ '9')) then
    some (cs.foldl (fun n c => 10 * n + (c.toNat - 48)) 0)
  else none

/-- A decimal integer with an optional leading `-`. -/
def parseInt (cs : List Char) : Option Int :=
  match cs with
  | '-' :: ds => (parseNat ds).map fun n => -(n : Int)
  | ds => (parseNat ds).map fun n => (n : Int)

/-- An `id` or `raw` operand: 0..3. -/
def parseSmall (cs : List Char) : Option (Fin 4) :=
  match parseNat cs with
  | some n => if h : n < 4 then some ⟨n, h⟩ else none
  | none => none

/-- The command a mnemonic and its operands spell, if its operands are in range. -/
def parseCommand (mnemonic : List Char) (operands : List (List Char)) : Option Instr :=
  let found : Option Instr :=
    match operands with
    | [] =>
      if mnemonic = ['Q', 'I', 'N', 'I', 'T'] then some .qinit
      else if mnemonic = ['M', 'I', 'N', 'I', 'T'] then some .minit
      else if mnemonic = ['S', 'I', 'N', 'I', 'T'] then some .sinit
      else none
    | [a] =>
      if mnemonic = ['Q', 'R', 'E', 'A', 'D'] then (parseSmall a).map .qread else none
    | [a, b] =>
      if mnemonic = ['Q', 'E', 'D', 'G', 'E'] then
        (parseSmall a).bind fun i => (parseSmall b).map fun r => .qedge i (BitVec.ofNat 2 r.val)
      else if mnemonic = ['M', 'D', 'U', 'T', 'Y'] then
        (parseSmall a).bind fun m => (parseInt b).map fun p => .mduty m p
      else if mnemonic = ['S', 'M', 'O', 'V', 'E'] then
        (parseSmall a).bind fun s => (parseInt b).map fun d => .smove s d
      else none
    | _ => none
  found.filter Instr.wellFormed

/-- The event of a command line: on the port of its prefix, or on its own port where there is no prefix (R81). -/
def commandEvent (port : Option Port) (i : Instr) : Event := .command (port.getD i.port) (encode i)

/-- A line without comment, prefix and outer blanks. -/
def parseBody (port : Option Port) (body : List Char) : Option Event :=
  let mnemonic := body.takeWhile fun c => c != ' '
  let rest := trim (body.dropWhile fun c => c != ' ')
  if mnemonic = ['P', 'B', 'O', 'U', 'N', 'D'] then
    match port, rest with
    | none, ['M'] => some (.boundary .motor)
    | none, ['S'] => some (.boundary .servo)
    | _, _ => none
  else
    (parseCommand mnemonic (if rest = [] then [] else (splitAtChar ',' rest).map trim)).map (commandEvent port)

/-- One line of a listing (R81): `some none` for a line with no command, `none` for an assembly error. -/
def assembleLine (line : List Char) : Option (Option Event) :=
  match trim (line.takeWhile fun c => c != ';') with
  | [] => some none
  | 'E' :: ':' :: body => (parseBody (some .edge) (trim body)).map some
  | 'H' :: ':' :: body => (parseBody (some .host) (trim body)).map some
  | body => (parseBody none body).map some

end Sys2Proof.Machine
end

