-- ==== Sys2Proof/Machine/Pins.lean ====
section
/-!
DEFINITION. The outputs of CORE (R71): each is driven continuously with the current value of the state element of the
same name. The read response is an event, not a level; the last one is `hostRdata`.
-/

namespace Sys2Proof.Machine

/-- The timer register outputs of the signal table (R71). -/
structure Pins where
  mPeriod : Word
  mCmp : Vector Word 2
  mMctrl : Word
  mEmctrl : Word
  mCen : BitVec 1
  sPeriod : Word
  sCmp : Vector Word 3
  sMctrl : Word
  sEmctrl : Word
  sCen : BitVec 1
  deriving DecidableEq, Repr

/-- The outputs in state `s` (R71). -/
def State.pins (s : State) : Pins where
  mPeriod := s.motor.period
  mCmp := s.motor.cmp
  mMctrl := s.motor.mctrl
  mEmctrl := s.motor.emctrl
  mCen := s.motor.cen
  sPeriod := s.servo.period
  sCmp := s.servo.cmp
  sMctrl := s.servo.mctrl
  sEmctrl := s.servo.emctrl
  sCen := s.servo.cen

/-- The last read response, if QREAD has produced one (R70). -/
def State.hostRdata (s : State) : Option Word := s.responses.getLast?

end Sys2Proof.Machine
end

