-- ==== Sys2Proof/Machine/EdgeSource.lean ====
section
/-!
DEFINITION. The EDGE agent's side of an edge interrupt (R165 to R168), as far as it meets CORE. CORE saves and restores
nothing for it (R168, R171); the interrupt status, its enable and its clearing are outside CORE (R166, R169).
-/

namespace Sys2Proof.Machine

/-- One of the four monitored pins: a line of an encoder (R166). -/
inductive Pin where
  | lineA (encoder : Fin 2)
  | lineB (encoder : Fin 2)
  deriving DecidableEq, Repr

/-- Routing: an interrupt on line A or on line B of encoder `i` is an edge event of encoder `i` (R167). -/
def Pin.encoder : Pin → Fin 2
  | .lineA i => i
  | .lineB i => i

/-- `raw = {A, B} = 2*A + B`, a high level being 1 (R8, R168 step 2). -/
def sample (lineA lineB : Bool) : Phase := BitVec.ofNat 2 (2 * lineA.toNat + lineB.toNat)

/-- The handler's step 3: one `QEDGE i, raw` on the EDGE port, where `i` is the encoder of the pin that raised the
interrupt and `raw` the sample of that encoder's two lines (R168). -/
def edgeEvent (pin : Pin) (lineA lineB : Bool) : Event :=
  .command .edge (encode (.qedge (pin.encoder.castLE (by decide)) (sample lineA lineB)))

end Sys2Proof.Machine
end

