-- ==== Sys2Proof/Safety.lean ====
section
/-!
DEFINITION. What runs of CORE are and what claims about them are stated in: a run over a list of events, the total
orders of R58, finished runs (R192), fairness (R131), the verdicts of R161 with their order (R162), the laws a state
keeps (R29, R33), and the tiers of the transition table (R25).
-/

namespace Sys2Proof

/-! ### The transition table -/

/-- Tier 2 of R25: repeats and double steps map to 0. -/
def Config.Tier2 (c : Config) : Prop := ∀ p : Phase, c.delta p p = 0 ∧ c.delta p (p ^^^ 3#2) = 0

/-- Tier 3 of R25: the forward cycle 0, 1, 3, 2, 0 counts up. -/
def Config.Tier3 (c : Config) : Prop :=
  c.delta 0 1 = 1 ∧ c.delta 1 3 = 1 ∧ c.delta 3 2 = 1 ∧ c.delta 2 0 = 1

/-- The recommended reading of "100 = fully on" (R133): no step depends on it. -/
def Config.FullScale (c : Config) : Prop := c.motorPeriod = motorTicks c 100

/-- The command is one of PWMX's (R2). -/
def Instr.isPwm : Instr → Bool
  | .qinit => false
  | .qedge _ _ => false
  | .qread _ => false
  | .minit => true
  | .sinit => true
  | .mduty _ _ => true
  | .smove _ _ => true

namespace Machine

/-! ### Runs -/

/-- Take a list of events one after the other; the first fault or refusal ends the run (R163). -/
def play : List Event → State → Result
  | [], s => .next s
  | e :: rest, s => andThen (deliver e s) (play rest)

/-- A finished run (R192): finitely many steps were taken, none gave a verdict, and no event is outstanding. -/
def FinishedRun (s t : State) : Prop := ∃ n : Nat, core.run n s = .next t ∧ t.inputs = []

/-- The agent whose step an event is (R5). -/
def Event.agent : Event → Agent
  | .command .edge _ => .edge
  | .command .host _ => .host
  | .boundary t => .timer t

/-- `w` is a total order of the steps the agents issue, each agent's in its issue order (R58). -/
def IsTotalOrder (issued : Agent → List Event) (w : List Event) : Prop :=
  ∀ a : Agent, w.filter (fun e => decide (e.agent = a)) = issued a

/-- The command an event carries, if it is one. -/
def Event.instr? : Event → Option Instr
  | .command _ w => (decode w).toOption
  | .boundary _ => none

/-- The event is not a QINIT. -/
def Event.notQinit (e : Event) : Bool := decide (e.instr? ≠ some .qinit)

/-- The `raw` values of the QEDGE commands to encoder `i`, in order (R97). -/
def edgesOf (i : Fin 2) : List Event → List Phase
  | [] => []
  | e :: rest =>
    match e.instr? with
    | some (.qedge id raw) => if id.val = i.val then raw :: edgesOf i rest else edgesOf i rest
    | _ => edgesOf i rest

/-- The sum over j of `TT[r_(j-1)][r_j]`, from phase `p` (R97). -/
def deltaSum (c : Config) (p : Phase) : List Phase → Int
  | [] => 0
  | r :: rest => c.delta p r + deltaSum c r rest

/-- The last sample, or `p` when there is none (R97: `r_k`). -/
def lastSample (p : Phase) : List Phase → Phase
  | [] => p
  | r :: rest => lastSample r rest

/-- The event is a QDEC command (R61). -/
def Event.isQdec (e : Event) : Bool := (e.instr?.map fun i => !i.isPwm).getD false

/-- The event is a PWMX command (R61). -/
def Event.isPwm (e : Event) : Bool := (e.instr?.map Instr.isPwm).getD false

/-- The event is a period boundary. -/
def Event.isBoundary : Event → Bool
  | .command _ _ => false
  | .boundary _ => true

/-- The PWM timer a command writes, if it writes one (R31). -/
def Instr.timer? : Instr → Option TimerId
  | .qinit => none
  | .qedge _ _ => none
  | .qread _ => none
  | .minit => some .motor
  | .sinit => some .servo
  | .mduty _ _ => some .motor
  | .smove _ _ => some .servo

/-- The PWM timer an event is a command to or a boundary of. -/
def Event.timer? : Event → Option TimerId
  | .command _ w => (decode w).toOption.bind Instr.timer?
  | .boundary t => some t

/-- A command on the port the opcode map gives it. -/
def ownPortEvent (i : Instr) : Event := .command i.port (encode i)

/-- A QINIT on its port. -/
def qinitEvent : Event := .command .host (encode .qinit)

/-- A QREAD on its port. -/
def qreadEvent (i : Fin 2) : Event := .command .host (encode (.qread (i.castLE (by decide))))

/-- The state the spec gives CORE and the responses it has put out: everything but the model's own interface fields
`port` and `inputs`. -/
def SameArch (s t : State) : Prop :=
  s.qdec = t.qdec ∧ s.motor = t.motor ∧ s.servo = t.servo ∧ s.responses = t.responses

/-! ### Endless runs and fairness -/

/-- The first `n` events of an endless stream, taken from `s`. -/
def along (env : Nat → Event) (s : State) (n : Nat) : Result := play ((List.range n).map env) s

/-- The counter of timer `t` is enabled. -/
def enabledAfter (t : TimerId) : Result → Prop
  | .next s => boundaryEnabled t s = true
  | .fault _ => False
  | .refused _ => False

/-- Fairness (R131): while `T_CEN = 1`, PBOUND T is never postponed for ever. -/
def FairFor (t : TimerId) (env : Nat → Event) (s : State) : Prop :=
  ∀ n, enabledAfter t (along env s n) → ∃ m, n ≤ m ∧ env m = .boundary t

/-! ### Verdicts -/

/-- The validity flag a command needs (R161): none for the initialisations. -/
def unitReady (i : Instr) (s : State) : Bool :=
  match i with
  | .qinit => true
  | .qedge _ _ => s.qdec.init
  | .qread _ => s.qdec.init
  | .minit => true
  | .sinit => true
  | .mduty _ _ => s.motor.init
  | .smove _ _ => s.servo.init

/-- The hardware has the instance the command names (R74): encoders and motors 0 and 1, servos 0, 1 and 2. -/
def idExists : Instr → Bool
  | .qinit => true
  | .qedge id _ => decide (id.val < 2)
  | .qread id => decide (id.val < 2)
  | .minit => true
  | .sinit => true
  | .mduty id _ => decide (id.val < 2)
  | .smove id _ => decide (id.val < 3)

/-- The codes of R161. -/
def Fault.code : Fault → Nat
  | .wrongPort => 2
  | .uninitialised => 3
  | .badId => 4

/-- The code of a refusal that R161 lists. -/
def Refusal.code : Refusal → Option Nat
  | .invalidWord _ => some 1
  | _ => none

/-! ### What a state keeps -/

/-- R29 for timer M: the compare registers are the formula of the commanded values. -/
def MotorCoherent (s : State) : Prop :=
  s.motor.init = true →
    ∀ m : Fin 2, ((s.motor.cmp[m]).toNat : Int) = trunc 32 (tdiv (Config.actual.ticksPerUs * (s.motor.cmd[m]).toInt) 2)

/-- R29 for timer S. -/
def ServoCoherent (s : State) : Prop :=
  s.servo.init = true →
    ∀ ch : Fin 3, ((s.servo.cmp[ch]).toNat : Int) = trunc 32 ((s.servo.cmd[ch]).val + Config.actual.servoOffsetTicks)

/-- Once a timer is initialised, its period and control words are the constants, and its counter runs; before that it
does not (R30, R33, R38). -/
def TimersConstant (s : State) : Prop :=
  (s.motor.init = true →
    ((s.motor.period).toNat : Int) = Config.actual.motorPeriod ∧ s.motor.mctrl = Config.actual.motorMctrlInit ∧
      s.motor.emctrl = Config.actual.motorEmctrlInit) ∧
  (s.servo.init = true →
    ((s.servo.period).toNat : Int) = Config.actual.servoPeriod ∧ s.servo.mctrl = Config.actual.servoMctrlInit ∧
      s.servo.emctrl = Config.actual.servoEmctrlInit) ∧
  (s.motor.cen = 1 ↔ s.motor.init = true) ∧ (s.servo.cen = 1 ↔ s.servo.init = true)

/-- The invariant of the machine. -/
def MachineInv (s : State) : Prop := MotorCoherent s ∧ ServoCoherent s ∧ TimersConstant s

end Machine
end Sys2Proof
end

