-- ==== Sys2Proof/Certificates/Slice0/Obligations.lean ====
section
/-!
DEFINITION. The statements about CORE. Each cites the rule of spec/ it formalises. Statements over `exec`, `deliver`,
`step` and `play` hold of the machine under `Config.actual`, a constant nothing is known of (log 2); statements over
`…Under c` name the configurations they hold of.
-/

open Sys2Proof Sys2Proof.Machine

/-! ### Encoding -/

/-- R72, R73, R78, R81: a command is read back from its word, with every operand at every value the encoding admits. -/
def Obligations.DecodeEncodeRoundTrip : Prop :=
  ∀ i : Instr, i.wellFormed = true → decode (encode i) = .ok i

/-- R76, R81: a word that decodes is the word of the command it decodes to, so two words never decode to one command;
and what is decoded is well-formed. -/
def Obligations.EncodeDecodeRoundTrip : Prop :=
  ∀ (w : CommandWord) (i : Instr), decode w = .ok i → encode i = w ∧ i.wellFormed = true

/-- R78: the decoding procedure, step by step, its operands (R73), and its agreement with the match and mask test. -/
def Obligations.DecodingFollowsTheProcedure : Prop :=
  ∀ w : CommandWord,
    ((bits w 39 36 = 0 ∨ 8 ≤ bits w 39 36 ∨ bits w 35 34 ≠ 0 ∨
        ((bits w 39 36 = 1 ∨ bits w 39 36 = 4 ∨ bits w 39 36 = 5) ∧ bits w 33 0 ≠ 0) ∨
        (bits w 39 36 = 3 ∧ bits w 31 0 ≠ 0) ∨ (bits w 39 36 = 2 ∧ bits w 31 2 ≠ 0)) ↔
      ∃ why, decode w = .error why) ∧
    (∀ i, decode w = .ok i →
      (bits w 39 36 = 1 → i = .qinit) ∧
      (bits w 39 36 = 2 → ∃ id raw, i = .qedge id raw ∧ id.val = bits w 33 32 ∧ raw.toNat = bits w 1 0) ∧
      (bits w 39 36 = 3 → ∃ id, i = .qread id ∧ id.val = bits w 33 32) ∧
      (bits w 39 36 = 4 → i = .minit) ∧
      (bits w 39 36 = 5 → i = .sinit) ∧
      (bits w 39 36 = 6 → ∃ id p, i = .mduty id p ∧ id.val = bits w 33 32 ∧ p = sext 32 (bits w 31 0)) ∧
      (bits w 39 36 = 7 → ∃ id d, i = .smove id d ∧ id.val = bits w 33 32 ∧ d = sext 32 (bits w 31 0))) ∧
    (∀ row ∈ opcodeTable, w &&& row.mask = row.pattern ↔ ∃ i, decode w = .ok i ∧ i.mnemonic = row.mnemonic)

/-- R75, R77: no word matches two rows of the opcode map, and exactly QEDGE is taken on the EDGE port. -/
def Obligations.OpcodeRowsAreDisjoint : Prop :=
  (∀ (w : CommandWord) (r₁ r₂ : OpcodeRow), r₁ ∈ opcodeTable → r₂ ∈ opcodeTable →
    w &&& r₁.mask = r₁.pattern → w &&& r₂.mask = r₂.pattern → r₁ = r₂) ∧
  (∀ i : Instr, i.port = .edge ↔ i.mnemonic = "QEDGE")

/-- R82: the worked encodings. -/
def Obligations.WorkedEncodings : Prop :=
  encode (.qedge 0 1) = 0x2000000001#40 ∧ encode (.qedge 1 2) = 0x2100000002#40 ∧
  encode (.qread 1) = 0x3100000000#40 ∧ encode (.mduty 0 50) = 0x6000000032#40 ∧
  encode (.mduty 0 150) = 0x6000000096#40 ∧ encode (.mduty 1 (-1)) = 0x61FFFFFFFF#40 ∧
  encode (.smove 1 (-10)) = 0x71FFFFFFF6#40 ∧ encode (.smove 2 180) = 0x72000000B4#40

/-- Section 2 of 95_test_vectors.md: words read as the commands they spell, one for every row of the opcode map. -/
def Obligations.WordsReadAsTheyAreSpelt : Prop :=
  decode 0x1000000000#40 = .ok .qinit ∧ decode 0x2100000002#40 = .ok (.qedge 1 2) ∧
  decode 0x3200000000#40 = .ok (.qread 2) ∧ decode 0x4000000000#40 = .ok .minit ∧
  decode 0x5000000000#40 = .ok .sinit ∧ decode 0x6080000000#40 = .ok (.mduty 0 (-2147483648)) ∧
  decode 0x71FFFFFFF6#40 = .ok (.smove 1 (-10)) ∧ decode 0x2000000004#40 = .error .mustBeZeroSet ∧
  decode 0x7800000000#40 = .error .zNotZero ∧ decode 0xF000000000#40 = .error .reservedOpcode

/-- R79: a word that no row matches is refused when it is taken, on either port, and these are the words with a reserved
`op`, a nonzero `z` or a nonzero must-be-zero part; the all-zero and the all-ones word are among them. -/
def Obligations.InvalidWordsAreRefused : Prop :=
  ∀ (s : State) (p : Port) (w : CommandWord) (rest : List Event), s.inputs = .command p w :: rest →
    ((∀ row ∈ opcodeTable, w &&& row.mask ≠ row.pattern) → ∃ why, step s = .refused (.invalidWord why)) ∧
    ((∀ row ∈ opcodeTable, w &&& row.mask ≠ row.pattern) ↔
      bits w 39 36 = 0 ∨ 8 ≤ bits w 39 36 ∨ bits w 35 34 ≠ 0 ∨
        ((bits w 39 36 = 1 ∨ bits w 39 36 = 4 ∨ bits w 39 36 = 5) ∧ (bits w 33 32 ≠ 0 ∨ bits w 31 0 ≠ 0)) ∨
        (bits w 39 36 = 2 ∧ bits w 31 2 ≠ 0) ∨ (bits w 39 36 = 3 ∧ bits w 31 0 ≠ 0)) ∧
    (w = 0 ∨ w = BitVec.allOnes 40 → ∃ why, step s = .refused (.invalidWord why))

/-- R81: lines of a listing and the events they stand for; an operand out of range is an assembly error. -/
def Obligations.AssemblerSpellsCommands : Prop :=
  assembleLine ['S', 'M', 'O', 'V', 'E', ' ', '1', ',', ' ', '-', '1', '0'] =
    some (some (.command .host 0x71FFFFFFF6#40)) ∧
  assembleLine ['Q', 'E', 'D', 'G', 'E', ' ', '0', ',', '1', ' ', ';', 'x'] =
    some (some (.command .edge 0x2000000001#40)) ∧
  assembleLine ['E', ':', ' ', 'Q', 'R', 'E', 'A', 'D', ' ', '0'] = some (some (.command .edge 0x3000000000#40)) ∧
  assembleLine ['P', 'B', 'O', 'U', 'N', 'D', ' ', 'S'] = some (some (.boundary .servo)) ∧
  assembleLine ['Q', 'R', 'E', 'A', 'D', ' ', '4'] = none ∧
  assembleLine ['M', 'D', 'U', 'T', 'Y', ' ', '0', ',', '2', '1', '4', '7', '4', '8', '3', '6', '4', '8'] = none

/-! ### The step -/

/-- R70, R78: the step takes the next word, and what runs is the command it decodes to, in the context of its port. -/
def Obligations.StepRunsTheDecodedCommand : Prop :=
  ∀ (s : State) (p : Port) (w : CommandWord) (rest : List Event) (i : Instr),
    s.inputs = .command p w :: rest → decode w = .ok i → step s = exec i { s with inputs := rest, port := p }

/-- R58: events are taken one at a time and in order; a step consumes exactly the first one and adds none. -/
def Obligations.StepTakesEventsInOrder : Prop :=
  ∀ (s t : State) (e : Event) (rest : List Event), s.inputs = e :: rest → step s = .next t →
    t.inputs = rest ∧ (∀ p w, e = .command p w → t.port = p)

/-- R192, log 3: a finished run of the machine is the outstanding events taken one after the other, to the last one. -/
def Obligations.FinishedRunsTakeEveryEvent : Prop :=
  ∀ s t : State, FinishedRun s t ↔ play s.inputs { s with inputs := [] } = .next t

/-- R163: a fault or a refusal stays for the rest of the run, and such a run is not finished. -/
def Obligations.VerdictsEndTheRun : Prop :=
  ∀ (n : Nat) (s : State),
    (∀ f, core.run n s = .fault f →
      (∀ k, core.run (n + k) s = .fault f) ∧ ¬ ∃ t, FinishedRun s t) ∧
    (∀ r, core.run n s = .refused r →
      (∀ k, core.run (n + k) s = .refused r) ∧ ¬ ∃ t, FinishedRun s t)

/-- R162: the verdict on a (port, word) pair, in its order, and the pair that has none gives a next state. -/
def Obligations.VerdictsInOrder : Prop :=
  ∀ (s : State) (p : Port) (w : CommandWord) (rest : List Event), s.inputs = .command p w :: rest →
    (∀ why, decode w = .error why → step s = .refused (.invalidWord why)) ∧
    (∀ i, decode w = .ok i →
      (p ≠ i.port → step s = .fault .wrongPort) ∧
      (p = i.port → unitReady i s = false → step s = .fault .uninitialised) ∧
      (p = i.port → unitReady i s = true → idExists i = false → step s = .fault .badId) ∧
      (p = i.port → unitReady i s = true → idExists i = true → ∃ t, step s = .next t))

/-- R77, R161, R200: a command, whatever its operand, gives a next state exactly when it comes in on its port, its unit
is initialised and the hardware has the instance it names. -/
def Obligations.CommandCompletesExactlyWhenLegal : Prop :=
  ∀ (i : Instr) (s : State),
    (∃ t, exec i s = .next t) ↔ s.port = i.port ∧ unitReady i s = true ∧ idExists i = true

/-! ### Reset -/

/-- R37, R190: after reset the three validity flags are false, both counter enables are 0 and nothing is outstanding. -/
def Obligations.ResetFlagsAndEnables : Prop :=
  State.reset.qdec.init = false ∧ State.reset.motor.init = false ∧ State.reset.servo.init = false ∧
  State.reset.motor.cen = 0 ∧ State.reset.servo.cen = 0 ∧ State.reset.inputs = []

/-- R191, R194: after reset, and as long as a unit is not initialised, its commands fault and answer nothing. -/
def Obligations.UninitialisedUnitsFault : Prop :=
  (∀ (s : State) (id : Fin 4), s.qdec.init = false → s.port = .host → exec (.qread id) s = .fault .uninitialised) ∧
  (∀ (s : State) (id : Fin 4) (raw : Phase), s.qdec.init = false → s.port = .edge →
    exec (.qedge id raw) s = .fault .uninitialised) ∧
  (∀ (s : State) (id : Fin 4) (p : Int), s.motor.init = false → s.port = .host →
    exec (.mduty id p) s = .fault .uninitialised) ∧
  (∀ (s : State) (id : Fin 4) (d : Int), s.servo.init = false → s.port = .host →
    exec (.smove id d) s = .fault .uninitialised) ∧
  (∀ id : Fin 4, exec (.qread id) State.reset = .fault .uninitialised)

/-- R38, R195: the shortest start-up sequence, in any order, from any state: every unit is usable, every element has the
value of the column "after its initialisation command", and the active compare values are what they were. -/
def Obligations.StartUpInAnyOrder : Prop :=
  ∀ (s : State) (w : List Event),
    w.Perm [ownPortEvent .qinit, ownPortEvent .minit, ownPortEvent .sinit] →
    ∃ t, play w s = .next t ∧
      t.qdec.init = true ∧ t.qdec.phase = #v[0, 0] ∧ t.qdec.position = #v[0, 0] ∧
      t.motor.init = true ∧ t.motor.cen = 1 ∧ (t.motor.period.toNat : Int) = Config.actual.motorPeriod ∧
      t.motor.mctrl = Config.actual.motorMctrlInit ∧ t.motor.emctrl = Config.actual.motorEmctrlInit ∧
      (∀ m : Fin 2, (t.motor.cmd[m]).toInt = Config.actual.motorDefaultPercent m ∧
        ((t.motor.cmp[m]).toNat : Int) = trunc 32 (tdiv (Config.actual.ticksPerUs * Config.actual.motorDefaultPercent m) 2)) ∧
      t.motor.cmpAct = s.motor.cmpAct ∧
      t.servo.init = true ∧ t.servo.cen = 1 ∧ (t.servo.period.toNat : Int) = Config.actual.servoPeriod ∧
      t.servo.mctrl = Config.actual.servoMctrlInit ∧ t.servo.emctrl = Config.actual.servoEmctrlInit ∧
      (∀ ch : Fin 3, ((t.servo.cmd[ch]).val : Int) = Config.actual.servoDefaultDegree ch ∧
        ((t.servo.cmp[ch]).toNat : Int) =
          trunc 32 (Config.actual.servoDefaultDegree ch + Config.actual.servoOffsetTicks)) ∧
      t.servo.cmpAct = s.servo.cmpAct ∧ t.responses = s.responses

/-! ### The quadrature decoder -/

/-- R90: QINIT, and its frame: nothing else changes. -/
def Obligations.QinitResetsBothEncoders : Prop :=
  encode .qinit = 0x1000000000#40 ∧
  ∀ s : State,
    (s.port = .host →
      exec .qinit s = .next { s with qdec := { init := true, phase := #v[0, 0], position := #v[0, 0] } }) ∧
    (s.port ≠ .host → exec .qinit s = .fault .wrongPort)

/-- R92: QEDGE, its faults in their order, and its frame: the other encoder, the flag and PWMX are untouched, and there
is no response. -/
def Obligations.QedgeStepsTheDecoder : Prop :=
  ∀ (id : Fin 4) (raw : Phase) (s : State),
    encode (.qedge id raw) = BitVec.ofNat 40 (0x2000000000 + id.val * 2 ^ 32 + raw.toNat) ∧
    (s.port ≠ .edge → exec (.qedge id raw) s = .fault .wrongPort) ∧
    (s.port = .edge → s.qdec.init = false → exec (.qedge id raw) s = .fault .uninitialised) ∧
    (s.port = .edge → s.qdec.init = true → 2 ≤ id.val → exec (.qedge id raw) s = .fault .badId) ∧
    (s.port = .edge → s.qdec.init = true → ∀ i : Fin 2, i.val = id.val →
      ∃ (t : State) (delta : Int), exec (.qedge id raw) s = .next t ∧
        delta = Config.actual.delta s.qdec.phase[i] raw ∧ (delta = -1 ∨ delta = 0 ∨ delta = 1) ∧
        (t.qdec.position[i]).toInt = wrap 32 ((s.qdec.position[i]).toInt + delta) ∧
        t.qdec.phase[i] = raw ∧
        (∀ j : Fin 2, j ≠ i → t.qdec.position[j] = s.qdec.position[j] ∧ t.qdec.phase[j] = s.qdec.phase[j]) ∧
        t.qdec.init = s.qdec.init ∧ t.motor = s.motor ∧ t.servo = s.servo ∧ t.port = s.port ∧
        t.inputs = s.inputs ∧ t.responses = s.responses)

/-- R94: at the ends of its range the accumulator wraps, no flag is set and nothing is reported. -/
def Obligations.PositionWrapsAtItsEnds : Prop :=
  ∀ (c : Config) (id : Fin 4) (raw : Phase) (s : State) (i : Fin 2),
    s.port = .edge → s.qdec.init = true → i.val = id.val →
    ((s.qdec.position[i]).toInt = 2147483647 → c.delta s.qdec.phase[i] raw = 1 →
      ∃ t, qedgeUnder c id raw s = .next t ∧ (t.qdec.position[i]).toInt = -2147483648 ∧
        t.qdec.init = s.qdec.init ∧ t.motor = s.motor ∧ t.servo = s.servo ∧ t.responses = s.responses) ∧
    ((s.qdec.position[i]).toInt = -2147483648 → c.delta s.qdec.phase[i] raw = -1 →
      ∃ t, qedgeUnder c id raw s = .next t ∧ (t.qdec.position[i]).toInt = 2147483647 ∧
        t.qdec.init = s.qdec.init ∧ t.motor = s.motor ∧ t.servo = s.servo ∧ t.responses = s.responses)

/-- R95 (a), (b): under a table of tier 2 a repeated sample changes nothing, and a double step leaves every position
and moves its encoder's phase to the sample. -/
def Obligations.RepeatsAndDoubleStepsDoNotCount : Prop :=
  ∀ (c : Config) (id : Fin 4) (s : State) (i : Fin 2),
    c.Tier2 → s.port = .edge → s.qdec.init = true → i.val = id.val →
    qedgeUnder c id s.qdec.phase[i] s = .next s ∧
    ∃ t, qedgeUnder c id (s.qdec.phase[i] ^^^ 3#2) s = .next t ∧ t.qdec.position = s.qdec.position ∧
      t.qdec.phase[i] = s.qdec.phase[i] ^^^ 3#2

/-- R25 tier 3 and R92 (the source's scenario S5): one full forward cycle 1, 3, 2, 0 from phase 0 adds four and returns
to phase 0, from any position. -/
def Obligations.ForwardCycleCountsFour : Prop :=
  ∀ (c : Config) (id : Fin 4) (s : State) (i : Fin 2),
    c.Tier3 → s.port = .edge → s.qdec.init = true → i.val = id.val → s.qdec.phase[i] = 0 →
    ∃ t,
      andThen (andThen (andThen (qedgeUnder c id 1 s) (qedgeUnder c id 3)) (qedgeUnder c id 2)) (qedgeUnder c id 0) =
        .next t ∧
      (t.qdec.position[i]).toInt = wrap 32 ((s.qdec.position[i]).toInt + 4) ∧ t.qdec.phase = s.qdec.phase

/-- R26, R101 (a), (d): under `TT_DEFAULT`, which meets tiers 2 and 3, a step to any phase and back leaves the decoder as
it was. -/
def Obligations.DefaultTableStepsAreReversible : Prop :=
  ∀ c : Config, c.tt = ttDefault →
    c.Tier2 ∧ c.Tier3 ∧ (∀ a b : Phase, c.delta a b = -c.delta b a) ∧
    ∀ (id : Fin 4) (raw : Phase) (s : State) (i : Fin 2),
      s.port = .edge → s.qdec.init = true → i.val = id.val →
      andThen (qedgeUnder c id raw s) (qedgeUnder c id s.qdec.phase[i]) = .next s

/-- R97: the accumulation law. Any other command and any boundary may stand between the edges. -/
def Obligations.AccumulationLaw : Prop :=
  ∀ (w : List Event) (s t : State) (i : Fin 2),
    (∀ e ∈ w, e.notQinit = true) → play (qinitEvent :: w) s = .next t →
    t.qdec.phase[i] = lastSample 0 (edgesOf i w) ∧
    (t.qdec.position[i]).toInt = wrap 32 (deltaSum Config.actual 0 (edgesOf i w)) ∧
    ((edgesOf i w).length < 2147483648 →
      wrap 32 (deltaSum Config.actual 0 (edgesOf i w)) = deltaSum Config.actual 0 (edgesOf i w))

/-- R58, R97: whichever total order the agents' commands are taken in, the decoder ends in one state. -/
def Obligations.InterleavingDoesNotChangeTheCounts : Prop :=
  ∀ (issued : Agent → List Event) (w₁ w₂ : List Event) (s₁ s₂ t₁ t₂ : State),
    IsTotalOrder issued w₁ → IsTotalOrder issued w₂ → (∀ e ∈ w₁, e.notQinit = true) →
    play (qinitEvent :: w₁) s₁ = .next t₁ → play (qinitEvent :: w₂) s₂ = .next t₂ → t₁.qdec = t₂.qdec

/-- R100: a read answers `wrap_32` of the sum of the deltas counted so far since the last QINIT, and nothing else. -/
def Obligations.ReadAnswersTheAccumulatedCount : Prop :=
  ∀ (w : List Event) (s u : State) (i : Fin 2),
    (∀ e ∈ w, e.notQinit = true) → play (qinitEvent :: w) s = .next u →
    ∃ (t : State) (r : Word), play (qinitEvent :: (w ++ [qreadEvent i])) s = .next t ∧
      t.responses = u.responses ++ [r] ∧ r.toInt = wrap 32 (deltaSum Config.actual 0 (edgesOf i w)) ∧ t.qdec = u.qdec

/-- R99: edges of different encoders commute under every table, and so do a read of one encoder and an edge of the
other. -/
def Obligations.CrossEncoderEdgesCommute : Prop :=
  (∀ (c : Config) (id jd : Fin 4) (a b : Phase) (s : State), id ≠ jd →
    andThen (qedgeUnder c id a s) (qedgeUnder c jd b) = andThen (qedgeUnder c jd b s) (qedgeUnder c id a)) ∧
  (∀ (i j : Fin 2) (b : Phase) (s t : State), i ≠ j →
    play [qreadEvent i, ownPortEvent (.qedge (j.castLE (by decide)) b)] s = .next t →
    ∃ t', play [ownPortEvent (.qedge (j.castLE (by decide)) b), qreadEvent i] s = .next t' ∧ SameArch t t')

/-- R96: QREAD, its faults in their order, its one response, and its frame: no state is written. -/
def Obligations.QreadRespondsWithThePosition : Prop :=
  ∀ (id : Fin 4) (s : State),
    encode (.qread id) = BitVec.ofNat 40 (0x3000000000 + id.val * 2 ^ 32) ∧
    (s.port ≠ .host → exec (.qread id) s = .fault .wrongPort) ∧
    (s.port = .host → s.qdec.init = false → exec (.qread id) s = .fault .uninitialised) ∧
    (s.port = .host → s.qdec.init = true → 2 ≤ id.val → exec (.qread id) s = .fault .badId) ∧
    (s.port = .host → s.qdec.init = true → ∀ i : Fin 2, i.val = id.val →
      ∃ r : Word, exec (.qread id) s = .next { s with responses := s.responses ++ [r] } ∧
        r.toNat = trunc 32 (s.qdec.position[i]).toInt ∧ sext 32 r.toNat = (s.qdec.position[i]).toInt)

/-- R21, R22: only QINIT and QEDGE write `phase` and `position`; no other command and no boundary changes QDEC. -/
def Obligations.OnlyQinitAndQedgeWriteTheDecoder : Prop :=
  ∀ (e : Event) (s t : State), deliver e s = .next t → t.qdec ≠ s.qdec →
    e.instr? = some .qinit ∨ ∃ id raw, e.instr? = some (.qedge id raw)

/-! ### The actuator driver -/

/-- R121: MINIT and its frame. -/
def Obligations.MinitSetsTheDefaults : Prop :=
  encode .minit = 0x4000000000#40 ∧
  ∀ s : State,
    (s.port ≠ .host → exec .minit s = .fault .wrongPort) ∧
    (s.port = .host → ∃ t, exec .minit s = .next t ∧
      (t.motor.period.toNat : Int) = Config.actual.motorPeriod ∧
      t.motor.mctrl = Config.actual.motorMctrlInit ∧ t.motor.emctrl = Config.actual.motorEmctrlInit ∧
      (∀ m : Fin 2, (t.motor.cmd[m]).toInt = Config.actual.motorDefaultPercent m ∧
        (t.motor.cmp[m]).toNat = trunc 32 (motorTicks Config.actual (Config.actual.motorDefaultPercent m))) ∧
      t.motor.cen = 1 ∧ t.motor.init = true ∧ t.motor.cmpAct = s.motor.cmpAct ∧
      t.qdec = s.qdec ∧ t.servo = s.servo ∧ t.port = s.port ∧ t.inputs = s.inputs ∧ t.responses = s.responses)

/-- R123: SINIT and its frame. -/
def Obligations.SinitSetsTheDefaults : Prop :=
  encode .sinit = 0x5000000000#40 ∧
  ∀ s : State,
    (s.port ≠ .host → exec .sinit s = .fault .wrongPort) ∧
    (s.port = .host → ∃ t, exec .sinit s = .next t ∧
      (t.servo.period.toNat : Int) = Config.actual.servoPeriod ∧
      t.servo.mctrl = Config.actual.servoMctrlInit ∧ t.servo.emctrl = Config.actual.servoEmctrlInit ∧
      (∀ ch : Fin 3, ((t.servo.cmd[ch]).val : Int) = Config.actual.servoDefaultDegree ch ∧
        (t.servo.cmp[ch]).toNat = trunc 32 (servoTicks Config.actual (Config.actual.servoDefaultDegree ch))) ∧
      t.servo.cen = 1 ∧ t.servo.init = true ∧ t.servo.cmpAct = s.servo.cmpAct ∧
      t.qdec = s.qdec ∧ t.motor = s.motor ∧ t.port = s.port ∧ t.inputs = s.inputs ∧ t.responses = s.responses)

/-- R125: MDUTY for every operand of 32 bits, its faults in their order, and its frame: the other channel and every other
register of timer M are untouched. -/
def Obligations.MdutyWritesTheCompareRegister : Prop :=
  ∀ (id : Fin 4) (percent : Int) (s : State), inArgRange percent = true →
    encode (.mduty id percent) = BitVec.ofNat 40 (0x6000000000 + id.val * 2 ^ 32 + trunc 32 percent) ∧
    (s.port ≠ .host → exec (.mduty id percent) s = .fault .wrongPort) ∧
    (s.port = .host → s.motor.init = false → exec (.mduty id percent) s = .fault .uninitialised) ∧
    (s.port = .host → s.motor.init = true → 2 ≤ id.val → exec (.mduty id percent) s = .fault .badId) ∧
    (s.port = .host → s.motor.init = true → ∀ m : Fin 2, m.val = id.val →
      ∃ t, exec (.mduty id percent) s = .next t ∧
        (t.motor.cmd[m]).toInt = percent ∧
        (t.motor.cmp[m]).toNat = trunc 32 (motorTicks Config.actual percent) ∧
        (∀ k : Fin 2, k ≠ m → t.motor.cmd[k] = s.motor.cmd[k] ∧ t.motor.cmp[k] = s.motor.cmp[k]) ∧
        t.motor.init = s.motor.init ∧ t.motor.period = s.motor.period ∧ t.motor.cmpAct = s.motor.cmpAct ∧
        t.motor.mctrl = s.motor.mctrl ∧ t.motor.emctrl = s.motor.emctrl ∧ t.motor.cen = s.motor.cen ∧
        t.qdec = s.qdec ∧ t.servo = s.servo ∧ t.port = s.port ∧ t.inputs = s.inputs ∧ t.responses = s.responses)

/-- R128: SMOVE for every operand of 32 bits, its faults in their order, and its frame. -/
def Obligations.SmoveWritesTheWrappedAngle : Prop :=
  ∀ (id : Fin 4) (degree : Int) (s : State), inArgRange degree = true →
    encode (.smove id degree) = BitVec.ofNat 40 (0x7000000000 + id.val * 2 ^ 32 + trunc 32 degree) ∧
    (s.port ≠ .host → exec (.smove id degree) s = .fault .wrongPort) ∧
    (s.port = .host → s.servo.init = false → exec (.smove id degree) s = .fault .uninitialised) ∧
    (s.port = .host → s.servo.init = true → 3 ≤ id.val → exec (.smove id degree) s = .fault .badId) ∧
    (s.port = .host → s.servo.init = true → ∀ ch : Fin 3, ch.val = id.val →
      ∃ t, exec (.smove id degree) s = .next t ∧
        ((t.servo.cmd[ch]).val : Int) = emod degree 180 ∧
        (t.servo.cmp[ch]).toNat = trunc 32 (emod degree 180 + Config.actual.servoOffsetTicks) ∧
        ((t.servo.cmp[ch]).toNat : Int) = servoTicks Config.actual degree ∧
        (∀ k : Fin 3, k ≠ ch → t.servo.cmd[k] = s.servo.cmd[k] ∧ t.servo.cmp[k] = s.servo.cmp[k]) ∧
        t.servo.init = s.servo.init ∧ t.servo.period = s.servo.period ∧ t.servo.cmpAct = s.servo.cmpAct ∧
        t.servo.mctrl = s.servo.mctrl ∧ t.servo.emctrl = s.servo.emctrl ∧ t.servo.cen = s.servo.cen ∧
        t.qdec = s.qdec ∧ t.motor = s.motor ∧ t.port = s.port ∧ t.inputs = s.inputs ∧ t.responses = s.responses)

/-- R91 (c), R122 (a), R124 (a): an initialisation command issued twice leaves what one leaves. -/
def Obligations.InitialisationsAreIdempotent : Prop :=
  ∀ (i : Instr) (s : State), i = .qinit ∨ i = .minit ∨ i = .sinit → andThen (exec i s) (exec i) = exec i s

/-- R127 (a) to (d): the ends of the duty range, monotonicity of the ticks and of the register values, exactness, and
oddness, for every configuration. -/
def Obligations.MotorTicksLaws : Prop :=
  ∀ c : Config,
    motorTicks c 0 = 0 ∧ motorTicks c 100 = c.ticksPerUs * 50 ∧
    (∀ p q : Int, p ≤ q → motorTicks c p ≤ motorTicks c q) ∧
    (∀ p q : Int, 0 ≤ p → p ≤ q → motorTicks c q < 4294967296 → trunc 32 (motorTicks c p) ≤ trunc 32 (motorTicks c q)) ∧
    (∀ p : Int, c.ticksPerUs * p % 2 = 0 → 2 * motorTicks c p = c.ticksPerUs * p) ∧
    (∀ p : Int, c.ticksPerUs * p % 2 = 1 →
      (0 ≤ p → 2 * motorTicks c p = c.ticksPerUs * p - 1) ∧ (p < 0 → 2 * motorTicks c p = c.ticksPerUs * p + 1)) ∧
    (∀ p : Int, motorTicks c (-p) = -motorTicks c p)

/-- R126: a duty outside [0,100] is neither refused nor clamped. The values are those of the illustrative configuration
`CFG_EX`. -/
def Obligations.DutyIsNotClamped : Prop :=
  ∀ s : State, s.port = .host → s.motor.init = true →
    (∃ t, mdutyUnder Config.cfgEx 0 150 s = .next t ∧ t.motor.cmp[(0 : Fin 2)] = 1875#32) ∧
    (∃ t, mdutyUnder Config.cfgEx 1 (-1) s = .next t ∧ t.motor.cmp[(1 : Fin 2)] = 0xFFFFFFF4#32) ∧
    (∃ t, mdutyUnder Config.cfgEx 1 1 s = .next t ∧ t.motor.cmp[(1 : Fin 2)] = 12#32)

/-- R130 (a), (b), (c): SMOVE is periodic with period 180, its compare value lies in one window of 180 ticks, and inside
a period it rises by one a degree. -/
def Obligations.SmoveIsPeriodicAndBounded : Prop :=
  (∀ (id : Fin 4) (d k : Int) (s : State), inArgRange d = true → inArgRange (d + 180 * k) = true →
    exec (.smove id (d + 180 * k)) s = exec (.smove id d) s) ∧
  (∀ (id : Fin 4) (d : Int) (s t : State) (ch : Fin 3), ch.val = id.val → exec (.smove id d) s = .next t →
    Config.actual.servoOffsetTicks ≤ (t.servo.cmp[ch]).toNat ∧
    ((t.servo.cmp[ch]).toNat : Int) ≤ Config.actual.servoOffsetTicks + 179) ∧
  (∀ (c : Config) (d : Int),
    (emod d 180 < 179 → servoTicks c (d + 1) = servoTicks c d + 1) ∧
    (emod d 180 = 179 → servoTicks c (d + 1) = servoTicks c d - 179))

/-- R127 (e), (f), R130 (d): the last command to a channel wins, and commands to different channels commute. -/
def Obligations.LastCommandWinsAndChannelsCommute : Prop :=
  (∀ (id : Fin 4) (p q : Int) (s : State),
    andThen (exec (.mduty id p) s) (exec (.mduty id q)) = exec (.mduty id q) s) ∧
  (∀ (id : Fin 4) (p q : Int) (s : State),
    andThen (exec (.smove id p) s) (exec (.smove id q)) = exec (.smove id q) s) ∧
  (∀ (id jd : Fin 4) (p q : Int) (s : State), id ≠ jd →
    andThen (exec (.mduty id p) s) (exec (.mduty jd q)) = andThen (exec (.mduty jd q) s) (exec (.mduty id p))) ∧
  (∀ (id jd : Fin 4) (p q : Int) (s : State), id ≠ jd →
    andThen (exec (.smove id p) s) (exec (.smove jd q)) = andThen (exec (.smove jd q) s) (exec (.smove id p)))

/-- R32, R196: no command changes an active compare value; a new duty or angle is not in effect when it is written. -/
def Obligations.CommandsLeaveTheActiveValues : Prop :=
  ∀ (i : Instr) (s t : State), exec i s = .next t →
    t.motor.cmpAct = s.motor.cmpAct ∧ t.servo.cmpAct = s.servo.cmpAct

/-- R30, R71: the registers driven to the timers are written by PWMX commands only; QDEC commands and boundaries leave
every output as it is. -/
def Obligations.OnlyPwmCommandsDriveTheOutputs : Prop :=
  ∀ (e : Event) (s t : State), deliver e s = .next t → e.isPwm = false → t.pins = s.pins

/-- R131, R132 (d): at a boundary of an enabled timer all its channels latch in one step and nothing else changes, and a
second boundary with no write between changes nothing. -/
def Obligations.BoundaryLatchesAllChannels : Prop :=
  ∀ (s : State) (rest : List Event),
    (s.inputs = .boundary .motor :: rest → s.motor.cen = 1 →
      step s = .next { s with inputs := rest, motor := { s.motor with cmpAct := s.motor.cmp } }) ∧
    (s.inputs = .boundary .servo :: rest → s.servo.cen = 1 →
      step s = .next { s with inputs := rest, servo := { s.servo with cmpAct := s.servo.cmp } }) ∧
    (∀ tm : TimerId, boundary tm (boundary tm s) = boundary tm s)

/-- R131, R132 (a): while the counter is not enabled there is no boundary. That the event is then dropped is the model's
own choice (log 7). -/
def Obligations.DisabledBoundaryChangesNothing : Prop :=
  ∀ (s : State) (rest : List Event),
    (s.inputs = .boundary .motor :: rest → s.motor.cen = 0 → step s = .next { s with inputs := rest }) ∧
    (s.inputs = .boundary .servo :: rest → s.servo.cen = 0 → step s = .next { s with inputs := rest })

/-- R132 (c): of two writes to a compare register before one boundary only the second becomes active. -/
def Obligations.OnlyTheLastWriteBecomesActive : Prop :=
  (∀ (id : Fin 4) (p q : Int) (s : State) (m : Fin 2), inArgRange q = true → s.port = .host → s.motor.init = true →
    s.motor.cen = 1 → m.val = id.val →
    ∃ t, andThen (exec (.mduty id p) s) (exec (.mduty id q)) = .next t ∧
      ((boundary .motor t).motor.cmpAct[m]).toNat = trunc 32 (motorTicks Config.actual q)) ∧
  (∀ (id : Fin 4) (p q : Int) (s : State) (ch : Fin 3), inArgRange q = true → s.port = .host → s.servo.init = true →
    s.servo.cen = 1 → ch.val = id.val →
    ∃ t, andThen (exec (.smove id p) s) (exec (.smove id q)) = .next t ∧
      ((boundary .servo t).servo.cmpAct[ch]).toNat = trunc 32 (servoTicks Config.actual q))

/-- R133, under its "if": when the period is the ticks of 100 percent and the product is even, the active compare value
after the boundary is `percent / 100` of the period. -/
def Obligations.DutyIsTheFractionOfThePeriod : Prop :=
  ∀ (c : Config) (id : Fin 4) (percent : Int) (s : State) (m : Fin 2),
    c.FullScale → 0 ≤ percent → percent ≤ 100 → c.ticksPerUs * percent % 2 = 0 → s.port = .host →
    s.motor.init = true → s.motor.cen = 1 → (s.motor.period.toNat : Int) = c.motorPeriod → m.val = id.val →
    ∃ t, mdutyUnder c id percent s = .next t ∧
      100 * (((boundary .motor t).motor.cmpAct[m]).toNat : Int) =
        ((boundary .motor t).motor.period.toNat : Int) * percent

/-! ### The whole machine -/

/-- R23, R33, R192: nothing clears a validity flag and no command stops a timer. -/
def Obligations.FlagsAndEnablesAreNeverCleared : Prop :=
  ∀ (s t : State), step s = .next t →
    (s.qdec.init = true → t.qdec.init = true) ∧ (s.motor.init = true → t.motor.init = true) ∧
    (s.servo.init = true → t.servo.init = true) ∧ (s.motor.cen = 1 → t.motor.cen = 1) ∧
    (s.servo.cen = 1 → t.servo.cen = 1)

/-- R29, R30, R33: every step keeps the invariant that the compare registers are the formula of the commanded values,
the period and the control words are the constants, and a timer runs exactly when it is initialised. -/
def Obligations.EveryStepKeepsTheInvariant : Prop :=
  ∀ s t : State, MachineInv s → step s = .next t → MachineInv t

/-- R29, R37: the state after reset meets the invariant. -/
def Obligations.ResetMeetsTheInvariant : Prop := MachineInv State.reset

/-- R61: a QDEC command commutes with every PWMX command and with every boundary, responses included. -/
def Obligations.UnitsAreIndependent : Prop :=
  ∀ (e f : Event) (s t : State), e.isQdec = true → f.isPwm = true ∨ f.isBoundary = true →
    (play [e, f] s = .next t → ∃ t', play [f, e] s = .next t' ∧ SameArch t t') ∧
    (play [f, e] s = .next t → ∃ t', play [e, f] s = .next t' ∧ SameArch t t')

/-- R31, R124 (b), R132 (e): every command and boundary of timer M commutes with every command and boundary of timer
S. -/
def Obligations.TimersAreIndependent : Prop :=
  ∀ (e f : Event) (s t : State), e.timer? = some .motor → f.timer? = some .servo →
    (play [e, f] s = .next t → ∃ t', play [f, e] s = .next t' ∧ SameArch t t') ∧
    (play [f, e] s = .next t → ∃ t', play [e, f] s = .next t' ∧ SameArch t t')

/-- R167, R168: an edge on either line of an encoder, handled, is one count of that encoder with the sample
`{A, B} = 2*A + B` of its lines; the other encoder and PWMX do not change. -/
def Obligations.HandledEdgeCountsOnce : Prop :=
  ∀ (pin : Pin) (lineA lineB : Bool) (s : State) (rest : List Event),
    s.qdec.init = true → s.inputs = edgeEvent pin lineA lineB :: rest →
    ∃ t, step s = .next t ∧ t.inputs = rest ∧
      (t.qdec.phase[pin.encoder]).toNat = 2 * lineA.toNat + lineB.toNat ∧
      (t.qdec.position[pin.encoder]).toInt =
        wrap 32 ((s.qdec.position[pin.encoder]).toInt +
          Config.actual.delta s.qdec.phase[pin.encoder] t.qdec.phase[pin.encoder]) ∧
      (∀ j : Fin 2, j ≠ pin.encoder → t.qdec.phase[j] = s.qdec.phase[j] ∧ t.qdec.position[j] = s.qdec.position[j]) ∧
      t.motor = s.motor ∧ t.servo = s.servo ∧ t.responses = s.responses

/-- R131: under fairness, in an endless run, a timer that runs takes its compare values at some later boundary. -/
def Obligations.FairTimersTakeTheirCompareValues : Prop :=
  ∀ (tm : TimerId) (env : Nat → Event) (s : State), FairFor tm env s → (∀ n, ∃ t, along env s n = .next t) →
    ∀ (n : Nat) (u : State), along env s n = .next u → boundaryEnabled tm u = true →
    ∃ (m : Nat) (t : State), n < m ∧ along env s m = .next t ∧
      (tm = .motor → t.motor.cmpAct = t.motor.cmp) ∧ (tm = .servo → t.servo.cmpAct = t.servo.cmp)
end

