-- ==== Sys2Proof/Laws/Primitives.lean ====
section
/-!
SUPPORT. The primitives of R8 and R9: what a stored register reads as, ranges, and the two round trips between a signed
operand and its 32-bit field.
-/

namespace Sys2Proof

theorem wrap_eq_bmod (v : Int) : wrap 32 v = v.bmod 4294967296 := by
  unfold wrap Int.bmod
  norm_num

/-- A signed register reads back as `wrap_32` of what was stored. -/
@[simp] theorem storeSigned_toInt (v : Int) : (storeSigned v).toInt = wrap 32 v := by
  simp [storeSigned, BitVec.toInt_ofInt, wrap_eq_bmod]

/-- An unsigned register reads back as `trunc_32` of what was stored. -/
@[simp] theorem storeUnsigned_toNat (v : Int) : (storeUnsigned v).toNat = trunc 32 v := by
  simp only [storeUnsigned, trunc, BitVec.toNat_ofNat]
  omega

/-- Two integers with one representative modulo `2^32` are stored as one register value. -/
theorem storeSigned_wrap (v : Int) : storeSigned (wrap 32 v) = storeSigned v := by
  apply BitVec.eq_of_toInt_eq
  simp only [storeSigned_toInt, wrap_eq_bmod, Int.bmod_bmod]

/-- Storing what a signed register holds leaves it as it is. -/
@[simp] theorem storeSigned_self (w : Word) : storeSigned w.toInt = w := by
  apply BitVec.eq_of_toInt_eq
  rw [storeSigned_toInt, wrap_eq_bmod]
  simpa using BitVec.toInt_bmod_cancel w

/-- Wrapping early or late is the same. -/
theorem wrap_add (a b : Int) : wrap 32 (wrap 32 a + b) = wrap 32 (a + b) := by
  simp only [wrap_eq_bmod, Int.bmod_add_bmod]

/-- The instance written reads as what was written. -/
theorem set_same {α : Type} {n : Nat} (v : Vector α n) (i : Fin n) (x : α) : (v.set i x)[i] = x := by
  simp [Fin.getElem_fin]

/-- Every other instance reads as before. -/
theorem set_other {α : Type} {n : Nat} (v : Vector α n) (i j : Fin n) (x : α) (h : j ≠ i) : (v.set i x)[j] = v[j] := by
  simp only [Fin.getElem_fin]
  exact Vector.getElem_set_ne _ _ fun e => h (Fin.ext e.symm)

/-- Writing what an instance holds changes nothing. -/
theorem set_unchanged {α : Type} {n : Nat} (v : Vector α n) (i : Fin n) : v.set i v[i] = v := by
  simp [Fin.getElem_fin]

theorem wrap_of_inArgRange {v : Int} (h : inArgRange v = true) : wrap 32 v = v := by
  simp [inArgRange] at h
  unfold wrap
  split <;> omega

theorem trunc_of_range {v : Int} (h0 : 0 ≤ v) (h1 : v < 4294967296) : (trunc 32 v : Int) = v := by
  unfold trunc
  omega

theorem trunc_lt (v : Int) : trunc 32 v < 4294967296 := by
  unfold trunc
  omega

/-- `sext_32` undoes `trunc_32` on the operand range. -/
theorem sext_trunc {v : Int} (h : inArgRange v = true) : sext 32 (trunc 32 v) = v := by
  simp [inArgRange] at h
  unfold sext trunc
  split <;> omega

/-- `trunc_32` undoes `sext_32` on a 32-bit field. -/
theorem trunc_sext {u : Nat} (h : u < 4294967296) : trunc 32 (sext 32 u) = u := by
  unfold sext trunc
  split <;> omega

theorem inArgRange_sext {u : Nat} (h : u < 4294967296) : inArgRange (sext 32 u) = true := by
  simp only [inArgRange, Bool.and_eq_true, decide_eq_true_eq]
  unfold sext
  split <;> omega

theorem emod_nonneg (d : Int) : 0 ≤ emod d 180 := by
  unfold emod
  omega

theorem emod_lt (d : Int) : emod d 180 < 180 := by
  unfold emod
  omega

/-- The commanded angle is the wrapped degree. -/
@[simp] theorem wrapDegree_val (d : Int) : ((wrapDegree d).val : Int) = emod d 180 := by
  have h0 := emod_nonneg d
  have h1 := emod_lt d
  simp only [wrapDegree, Fin.ofNat]
  omega

/-- `tdiv(., 2)` rounds toward zero. -/
theorem tdiv_two (a : Int) : tdiv a 2 = a.tdiv 2 := by
  unfold tdiv
  split
  · rw [Int.tdiv_eq_ediv_of_nonneg (by assumption)]
  · rw [← Int.tdiv_eq_ediv_of_nonneg (by omega), Int.neg_tdiv]
    omega

theorem ticksPerUs_pos (c : Config) : 1 ≤ c.ticksPerUs := by
  unfold Config.ticksPerUs
  omega

theorem ticksPerUs_lt (c : Config) : c.ticksPerUs < 65536 := by
  have := c.ticksPerUsLess1.isLt
  unfold Config.ticksPerUs
  omega

theorem servoOffset_range (c : Config) : 0 ≤ c.servoOffsetTicks ∧ c.servoOffsetTicks ≤ 4294967116 := by
  have := c.servoOffset.isLt
  unfold Config.servoOffsetTicks
  omega

theorem motorPeriod_range (c : Config) : 1 ≤ c.motorPeriod ∧ c.motorPeriod < 4294967296 := by
  have := c.motorPeriodLess1.isLt
  unfold Config.motorPeriod
  omega

theorem servoPeriod_range (c : Config) : 1 ≤ c.servoPeriod ∧ c.servoPeriod < 4294967296 := by
  have := c.servoPeriodLess1.isLt
  unfold Config.servoPeriod
  omega

/-- Tier 1 of R25: an entry of the table is -1, 0 or +1. -/
theorem delta_range (c : Config) (p n : Phase) : c.delta p n = -1 ∨ c.delta p n = 0 ∨ c.delta p n = 1 := by
  unfold Config.delta
  cases c.tt[4 * p.toNat + n.toNat]'(by have := p.isLt; have := n.isLt; omega) <;> simp [Delta.toInt]

end Sys2Proof
end

