-- ==== Sys2Proof/Laws/Decode.lean ====
section
/-!
SUPPORT. The fields of a Format C word (R72), and the fields of any word put together again.
-/

namespace Sys2Proof

theorem formatC_toNat {op id arg : Nat} (ho : op < 16) (hi : id < 4) (ha : arg < 4294967296) :
    (formatC op id arg).toNat = op * 68719476736 + id * 4294967296 + arg := by
  simp only [formatC, BitVec.toNat_ofNat]
  omega

section Fields
variable {op id arg : Nat} (ho : op < 16) (hi : id < 4) (ha : arg < 4294967296)
include ho hi ha

theorem bits_op : bits (formatC op id arg) 39 36 = op := by
  simp only [bits, formatC_toNat ho hi ha]
  omega

theorem bits_z : bits (formatC op id arg) 35 34 = 0 := by
  simp only [bits, formatC_toNat ho hi ha]
  omega

theorem bits_id : bits (formatC op id arg) 33 32 = id := by
  simp only [bits, formatC_toNat ho hi ha]
  omega

theorem bits_arg : bits (formatC op id arg) 31 0 = arg := by
  simp only [bits, formatC_toNat ho hi ha]
  omega

theorem bits_arg_high : bits (formatC op id arg) 31 2 = arg / 4 := by
  simp only [bits, formatC_toNat ho hi ha]
  omega

theorem bits_arg_low : bits (formatC op id arg) 1 0 = arg % 4 := by
  simp only [bits, formatC_toNat ho hi ha]
  omega

theorem bits_id_arg : bits (formatC op id arg) 33 0 = id * 4294967296 + arg := by
  simp only [bits, formatC_toNat ho hi ha]
  omega

end Fields

/-- A word with `z = 0` is the Format C word of its fields. -/
theorem formatC_of_bits {w : CommandWord} (hz : bits w 35 34 = 0) :
    formatC (bits w 39 36) (bits w 33 32) (bits w 31 0) = w := by
  apply BitVec.eq_of_toNat_eq
  have hw : w.toNat < 1099511627776 := w.isLt
  rw [formatC_toNat (by unfold bits; omega) (by unfold bits; omega) (by unfold bits; omega)]
  simp only [bits] at hz ⊢
  omega

theorem whenZero_ok {field : Nat} {i j : Instr} : whenZero field i = .ok j ↔ field = 0 ∧ i = j := by
  unfold whenZero
  split <;> simp_all

section Rows
variable {w : CommandWord} (hz : bits w 35 34 = 0)
include hz

theorem decode_qinit (ho : bits w 39 36 = 1) (h0 : bits w 33 0 = 0) : decode w = .ok .qinit := by
  simp [decode, whenZero, ho, hz, h0]

theorem decode_qedge (ho : bits w 39 36 = 2) (h0 : bits w 31 2 = 0) :
    decode w = .ok (.qedge (idField w) (rawField w)) := by
  simp [decode, whenZero, ho, hz, h0]

theorem decode_qread (ho : bits w 39 36 = 3) (h0 : bits w 31 0 = 0) : decode w = .ok (.qread (idField w)) := by
  simp [decode, whenZero, ho, hz, h0]

theorem decode_minit (ho : bits w 39 36 = 4) (h0 : bits w 33 0 = 0) : decode w = .ok .minit := by
  simp [decode, whenZero, ho, hz, h0]

theorem decode_sinit (ho : bits w 39 36 = 5) (h0 : bits w 33 0 = 0) : decode w = .ok .sinit := by
  simp [decode, whenZero, ho, hz, h0]

theorem decode_mduty (ho : bits w 39 36 = 6) : decode w = .ok (.mduty (idField w) (signedArg w)) := by
  simp [decode, ho, hz]

theorem decode_smove (ho : bits w 39 36 = 7) : decode w = .ok (.smove (idField w) (signedArg w)) := by
  simp [decode, ho, hz]

end Rows

theorem idField_eq {w : CommandWord} {id : Fin 4} (h : bits w 33 32 = id.val) : idField w = id := by
  simp [idField, h]

theorem rawField_eq {w : CommandWord} {raw : Phase} (h : bits w 1 0 = raw.toNat) : rawField w = raw := by
  simp [rawField, zext, h]

theorem signedArg_eq {w : CommandWord} {v : Int} (hv : inArgRange v = true) (h : bits w 31 0 = trunc 32 v) :
    signedArg w = v := by
  rw [signedArg, h, sext_trunc hv]

/-- What a word that decodes is: its `z` is 0 and its `op` is one of the seven, each with its must-be-zero part 0. -/
theorem decode_ok_cases {w : CommandWord} {i : Instr} (h : decode w = .ok i) :
    bits w 35 34 = 0 ∧
    ((bits w 39 36 = 1 ∧ bits w 33 0 = 0 ∧ .qinit = i) ∨
     (bits w 39 36 = 2 ∧ bits w 31 2 = 0 ∧ .qedge (idField w) (rawField w) = i) ∨
     (bits w 39 36 = 3 ∧ bits w 31 0 = 0 ∧ .qread (idField w) = i) ∨
     (bits w 39 36 = 4 ∧ bits w 33 0 = 0 ∧ .minit = i) ∨
     (bits w 39 36 = 5 ∧ bits w 33 0 = 0 ∧ .sinit = i) ∨
     (bits w 39 36 = 6 ∧ .mduty (idField w) (signedArg w) = i) ∨
     (bits w 39 36 = 7 ∧ .smove (idField w) (signedArg w) = i)) := by
  unfold decode at h
  split at h
  · simp at h
  · split at h
    · simp at h
    · rename_i hz
      refine ⟨not_not.mp hz, ?_⟩
      split at h <;> simp_all [whenZero_ok]

end Sys2Proof
end

