-- ==== Sys2Proof/Laws/State.lean ====
section
/-!
SUPPORT. One lemma per field per update: later proofs cite these and unfold no record.
-/

namespace Sys2Proof.Machine

section Qdec
variable (c : Config) (q : Qdec) (i : Fin 2) (raw : Phase)

@[simp] theorem Qdec.initialised_init : Qdec.initialised.init = true := rfl
@[simp] theorem Qdec.initialised_phase : Qdec.initialised.phase = #v[0, 0] := rfl
@[simp] theorem Qdec.initialised_position : Qdec.initialised.position = #v[0, 0] := rfl

@[simp] theorem Qdec.edge_init : (q.edge c i raw).init = q.init := rfl
@[simp] theorem Qdec.edge_phase : (q.edge c i raw).phase = q.phase.set i raw := rfl
@[simp] theorem Qdec.edge_position :
    (q.edge c i raw).position =
      q.position.set i (storeSigned ((q.position[i]).toInt + c.delta q.phase[i] raw)) := rfl

end Qdec

section Pwm
variable {n : Nat} {α : Type} (p : Pwm n α) (ticks : α → Word) (period mctrl emctrl : Word) (defaults : Fin n → α)
  (ch : Fin n) (v : α)

@[simp] theorem Pwm.initialise_init : (p.initialise ticks period mctrl emctrl defaults).init = true := rfl
@[simp] theorem Pwm.initialise_cmd : (p.initialise ticks period mctrl emctrl defaults).cmd = Vector.ofFn defaults := rfl
@[simp] theorem Pwm.initialise_period : (p.initialise ticks period mctrl emctrl defaults).period = period := rfl
@[simp] theorem Pwm.initialise_cmp :
    (p.initialise ticks period mctrl emctrl defaults).cmp = Vector.ofFn fun ch => ticks (defaults ch) := rfl
@[simp] theorem Pwm.initialise_cmpAct : (p.initialise ticks period mctrl emctrl defaults).cmpAct = p.cmpAct := rfl
@[simp] theorem Pwm.initialise_mctrl : (p.initialise ticks period mctrl emctrl defaults).mctrl = mctrl := rfl
@[simp] theorem Pwm.initialise_emctrl : (p.initialise ticks period mctrl emctrl defaults).emctrl = emctrl := rfl
@[simp] theorem Pwm.initialise_cen : (p.initialise ticks period mctrl emctrl defaults).cen = 1 := rfl

@[simp] theorem Pwm.command_init : (p.command ticks ch v).init = p.init := rfl
@[simp] theorem Pwm.command_cmd : (p.command ticks ch v).cmd = p.cmd.set ch v := rfl
@[simp] theorem Pwm.command_period : (p.command ticks ch v).period = p.period := rfl
@[simp] theorem Pwm.command_cmp : (p.command ticks ch v).cmp = p.cmp.set ch (ticks v) := rfl
@[simp] theorem Pwm.command_cmpAct : (p.command ticks ch v).cmpAct = p.cmpAct := rfl
@[simp] theorem Pwm.command_mctrl : (p.command ticks ch v).mctrl = p.mctrl := rfl
@[simp] theorem Pwm.command_emctrl : (p.command ticks ch v).emctrl = p.emctrl := rfl
@[simp] theorem Pwm.command_cen : (p.command ticks ch v).cen = p.cen := rfl

@[simp] theorem Pwm.latch_init : p.latch.init = p.init := rfl
@[simp] theorem Pwm.latch_cmd : p.latch.cmd = p.cmd := rfl
@[simp] theorem Pwm.latch_period : p.latch.period = p.period := rfl
@[simp] theorem Pwm.latch_cmp : p.latch.cmp = p.cmp := rfl
@[simp] theorem Pwm.latch_cmpAct : p.latch.cmpAct = p.cmp := rfl
@[simp] theorem Pwm.latch_mctrl : p.latch.mctrl = p.mctrl := rfl
@[simp] theorem Pwm.latch_emctrl : p.latch.emctrl = p.emctrl := rfl
@[simp] theorem Pwm.latch_cen : p.latch.cen = p.cen := rfl

end Pwm

section State
variable (s : State) (v : Word) (e : Event)

@[simp] theorem State.respond_qdec : (s.respond v).qdec = s.qdec := rfl
@[simp] theorem State.respond_motor : (s.respond v).motor = s.motor := rfl
@[simp] theorem State.respond_servo : (s.respond v).servo = s.servo := rfl
@[simp] theorem State.respond_port : (s.respond v).port = s.port := rfl
@[simp] theorem State.respond_inputs : (s.respond v).inputs = s.inputs := rfl
@[simp] theorem State.respond_responses : (s.respond v).responses = s.responses ++ [v] := rfl

@[simp] theorem State.present_qdec : (s.present e).qdec = s.qdec := rfl
@[simp] theorem State.present_motor : (s.present e).motor = s.motor := rfl
@[simp] theorem State.present_servo : (s.present e).servo = s.servo := rfl
@[simp] theorem State.present_port : (s.present e).port = s.port := rfl
@[simp] theorem State.present_inputs : (s.present e).inputs = e :: s.inputs := rfl
@[simp] theorem State.present_responses : (s.present e).responses = s.responses := rfl

end State

end Sys2Proof.Machine
end

