-- ==== Sys2Proof/Laws/Ops.lean ====
section
/-!
SUPPORT. For each shared operation and each command, once, everything it can do: when it answers a next state, and which.
-/

namespace Sys2Proof.Machine

/-! ### The `require` lines -/

theorem require_next {c : Bool} {f : Fault} {k : Result} {t : State} :
    require c f k = .next t ↔ c = true ∧ k = .next t := by
  unfold require
  split <;> simp_all

theorem requirePort_next {p : Port} {s t : State} {k : Result} :
    requirePort p s k = .next t ↔ s.port = p ∧ k = .next t := by
  simp [requirePort, require_next]

theorem requireQdec_next {s t : State} {k : Result} :
    requireQdec s k = .next t ↔ s.qdec.init = true ∧ k = .next t := require_next

theorem requireMotor_next {s t : State} {k : Result} :
    requireMotor s k = .next t ↔ s.motor.init = true ∧ k = .next t := require_next

theorem requireServo_next {s t : State} {k : Result} :
    requireServo s k = .next t ↔ s.servo.init = true ∧ k = .next t := require_next

theorem withInstance_next {n : Nat} {id : Fin 4} {k : Fin n → Result} {t : State} :
    withInstance n id k = .next t ↔ ∃ i : Fin n, i.val = id.val ∧ k i = .next t := by
  unfold withInstance
  split
  · rename_i h
    exact ⟨fun hk => ⟨_, rfl, hk⟩, fun ⟨i, hi, hk⟩ => by rwa [show (⟨id.val, h⟩ : Fin n) = i from Fin.ext hi.symm]⟩
  · rename_i h
    exact ⟨fun hk => by simp at hk, fun ⟨i, hi, _⟩ => absurd (hi ▸ i.isLt) h⟩

@[simp] theorem require_true (f : Fault) (k : Result) : require true f k = k := rfl
@[simp] theorem require_false (f : Fault) (k : Result) : require false f k = .fault f := rfl

theorem requirePort_self {p : Port} {s : State} {k : Result} (h : s.port = p) : requirePort p s k = k := by
  simp [requirePort, h]

theorem requirePort_other {p : Port} {s : State} {k : Result} (h : s.port ≠ p) :
    requirePort p s k = .fault .wrongPort := by
  simp [requirePort, h]

theorem withInstance_some {n : Nat} {id : Fin 4} {k : Fin n → Result} {i : Fin n} (h : i.val = id.val) :
    withInstance n id k = k i := by
  have hi : id.val < n := h ▸ i.isLt
  have : (⟨id.val, hi⟩ : Fin n) = i := Fin.ext h.symm
  simp [withInstance, hi, this]

theorem withInstance_none {n : Nat} {id : Fin 4} {k : Fin n → Result} (h : ¬ id.val < n) :
    withInstance n id k = .fault .badId := by
  simp [withInstance, h]

/-! ### Sequencing -/

@[simp] theorem andThen_next (s : State) (k : State → Result) : andThen (.next s) k = k s := rfl
@[simp] theorem andThen_fault (f : Fault) (k : State → Result) : andThen (.fault f) k = .fault f := rfl
@[simp] theorem andThen_refused (r : Refusal) (k : State → Result) : andThen (.refused r) k = .refused r := rfl

theorem andThen_eq_next {r : Result} {k : State → Result} {t : State} :
    andThen r k = .next t ↔ ∃ u, r = .next u ∧ k u = .next t := by
  cases r <;> simp

/-! ### Compare values -/

/-- The compare register of an in-range duty. -/
theorem motorCompare_toNat (c : Config) {percent : Int} (h : inArgRange percent = true) :
    (motorCompare c (storeSigned percent)).toNat = trunc 32 (motorTicks c percent) := by
  simp [motorCompare, wrap_of_inArgRange h]

theorem servoTicks_wrapDegree (c : Config) (degree : Int) :
    servoTicks c (wrapDegree degree).val = servoTicks c degree := by
  rw [wrapDegree_val]
  unfold servoTicks emod
  omega

theorem servoTicks_range (c : Config) (degree : Int) :
    c.servoOffsetTicks ≤ servoTicks c degree ∧ servoTicks c degree ≤ c.servoOffsetTicks + 179 := by
  unfold servoTicks emod
  omega

/-- The compare register of a servo never loses a bit (R128). -/
theorem servoCompare_toNat (c : Config) (cmd : Fin 180) :
    ((servoCompare c cmd).toNat : Int) = servoTicks c cmd.val := by
  have h1 := servoTicks_range c cmd.val
  have h2 := servoOffset_range c
  simp only [servoCompare, storeUnsigned_toNat]
  exact trunc_of_range (by omega) (by omega)

/-- The bits a read answers are the register's own (R96). -/
theorem Qdec.read_eq_position (q : Qdec) (i : Fin 2) : q.read i = q.position[i] := by
  simp only [Qdec.read]
  generalize q.position[i] = w
  apply BitVec.eq_of_toNat_eq
  have := w.isLt
  rw [storeUnsigned_toNat, trunc, BitVec.toInt_eq_toNat_cond]
  split <;> omega

/-! ### The commands -/

theorem execQinit_next {s t : State} :
    execQinit s = .next t ↔ s.port = .host ∧ { s with qdec := Qdec.initialised } = t := by
  simp [execQinit, requirePort_next]

theorem qedgeUnder_next {c : Config} {id : Fin 4} {raw : Phase} {s t : State} :
    qedgeUnder c id raw s = .next t ↔
      s.port = .edge ∧ s.qdec.init = true ∧
        ∃ i : Fin 2, i.val = id.val ∧ { s with qdec := s.qdec.edge c i raw } = t := by
  simp [qedgeUnder, requirePort_next, requireQdec_next, withInstance_next]

theorem execQread_next {id : Fin 4} {s t : State} :
    execQread id s = .next t ↔
      s.port = .host ∧ s.qdec.init = true ∧ ∃ i : Fin 2, i.val = id.val ∧ s.respond (s.qdec.read i) = t := by
  simp [execQread, requirePort_next, requireQdec_next, withInstance_next]

theorem minitUnder_next {c : Config} {s t : State} :
    minitUnder c s = .next t ↔
      s.port = .host ∧
        { s with
          motor := s.motor.initialise (motorCompare c) (storeUnsigned c.motorPeriod) c.motorMctrlInit c.motorEmctrlInit
            (fun m => storeSigned (c.motorDefaultPercent m)) } = t := by
  simp [minitUnder, requirePort_next]

theorem sinitUnder_next {c : Config} {s t : State} :
    sinitUnder c s = .next t ↔
      s.port = .host ∧
        { s with
          servo := s.servo.initialise (servoCompare c) (storeUnsigned c.servoPeriod) c.servoMctrlInit c.servoEmctrlInit
            (fun ch => c.servoDefault[ch]) } = t := by
  simp [sinitUnder, requirePort_next]

theorem mdutyUnder_next {c : Config} {id : Fin 4} {percent : Int} {s t : State} :
    mdutyUnder c id percent s = .next t ↔
      s.port = .host ∧ s.motor.init = true ∧
        ∃ i : Fin 2, i.val = id.val ∧
          { s with motor := s.motor.command (motorCompare c) i (storeSigned percent) } = t := by
  simp [mdutyUnder, requirePort_next, requireMotor_next, withInstance_next]

theorem smoveUnder_next {c : Config} {id : Fin 4} {degree : Int} {s t : State} :
    smoveUnder c id degree s = .next t ↔
      s.port = .host ∧ s.servo.init = true ∧
        ∃ i : Fin 3, i.val = id.val ∧
          { s with servo := s.servo.command (servoCompare c) i (wrapDegree degree) } = t := by
  simp [smoveUnder, requirePort_next, requireServo_next, withInstance_next]

/-! The meaning each arm of `exec` calls. -/

theorem exec_qinit (s : State) : exec .qinit s = execQinit s := rfl
theorem exec_qedge (id : Fin 4) (raw : Phase) (s : State) :
    exec (.qedge id raw) s = qedgeUnder Config.actual id raw s := rfl
theorem exec_qread (id : Fin 4) (s : State) : exec (.qread id) s = execQread id s := rfl
theorem exec_minit (s : State) : exec .minit s = minitUnder Config.actual s := rfl
theorem exec_sinit (s : State) : exec .sinit s = sinitUnder Config.actual s := rfl
theorem exec_mduty (id : Fin 4) (percent : Int) (s : State) :
    exec (.mduty id percent) s = mdutyUnder Config.actual id percent s := rfl
theorem exec_smove (id : Fin 4) (degree : Int) (s : State) :
    exec (.smove id degree) s = smoveUnder Config.actual id degree s := rfl

/-- QEDGE completes under its guards, on the encoder its `id` names. -/
theorem qedgeUnder_eq (c : Config) {id : Fin 4} (raw : Phase) {s : State} {i : Fin 2} (hp : s.port = .edge)
    (hq : s.qdec.init = true) (h : i.val = id.val) :
    qedgeUnder c id raw s = .next { s with qdec := s.qdec.edge c i raw } :=
  qedgeUnder_next.mpr ⟨hp, hq, i, h, rfl⟩

theorem execQread_eq {id : Fin 4} {s : State} {i : Fin 2} (hp : s.port = .host) (hq : s.qdec.init = true)
    (h : i.val = id.val) : execQread id s = .next (s.respond (s.qdec.read i)) :=
  execQread_next.mpr ⟨hp, hq, i, h, rfl⟩

theorem mdutyUnder_eq (c : Config) {id : Fin 4} (percent : Int) {s : State} {m : Fin 2} (hp : s.port = .host)
    (hm : s.motor.init = true) (h : m.val = id.val) :
    mdutyUnder c id percent s =
      .next { s with motor := s.motor.command (motorCompare c) m (storeSigned percent) } :=
  mdutyUnder_next.mpr ⟨hp, hm, m, h, rfl⟩

theorem smoveUnder_eq (c : Config) {id : Fin 4} (degree : Int) {s : State} {ch : Fin 3} (hp : s.port = .host)
    (hs : s.servo.init = true) (h : ch.val = id.val) :
    smoveUnder c id degree s = .next { s with servo := s.servo.command (servoCompare c) ch (wrapDegree degree) } :=
  smoveUnder_next.mpr ⟨hp, hs, ch, h, rfl⟩

/-- What any command can do, once: one case per command, with its guards. -/
theorem exec_next_cases {i : Instr} {s t : State} (h : exec i s = .next t) :
    (i = .qinit ∧ s.port = .host ∧ { s with qdec := Qdec.initialised } = t) ∨
    (∃ id raw, i = .qedge id raw ∧ s.port = .edge ∧ s.qdec.init = true ∧
      ∃ k : Fin 2, k.val = id.val ∧ { s with qdec := s.qdec.edge Config.actual k raw } = t) ∨
    (∃ id, i = .qread id ∧ s.port = .host ∧ s.qdec.init = true ∧
      ∃ k : Fin 2, k.val = id.val ∧ s.respond (s.qdec.read k) = t) ∨
    (i = .minit ∧ s.port = .host ∧
      { s with
        motor := s.motor.initialise (motorCompare Config.actual) (storeUnsigned Config.actual.motorPeriod)
          Config.actual.motorMctrlInit Config.actual.motorEmctrlInit
          (fun m => storeSigned (Config.actual.motorDefaultPercent m)) } = t) ∨
    (i = .sinit ∧ s.port = .host ∧
      { s with
        servo := s.servo.initialise (servoCompare Config.actual) (storeUnsigned Config.actual.servoPeriod)
          Config.actual.servoMctrlInit Config.actual.servoEmctrlInit
          (fun ch => Config.actual.servoDefault[ch]) } = t) ∨
    (∃ id percent, i = .mduty id percent ∧ s.port = .host ∧ s.motor.init = true ∧
      ∃ k : Fin 2, k.val = id.val ∧
        { s with motor := s.motor.command (motorCompare Config.actual) k (storeSigned percent) } = t) ∨
    (∃ id degree, i = .smove id degree ∧ s.port = .host ∧ s.servo.init = true ∧
      ∃ k : Fin 3, k.val = id.val ∧
        { s with servo := s.servo.command (servoCompare Config.actual) k (wrapDegree degree) } = t) := by
  cases i with
  | qinit => exact .inl ⟨rfl, execQinit_next.mp h⟩
  | qedge id raw => exact .inr (.inl ⟨id, raw, rfl, qedgeUnder_next.mp h⟩)
  | qread id => exact .inr (.inr (.inl ⟨id, rfl, execQread_next.mp h⟩))
  | minit => exact .inr (.inr (.inr (.inl ⟨rfl, minitUnder_next.mp h⟩)))
  | sinit => exact .inr (.inr (.inr (.inr (.inl ⟨rfl, sinitUnder_next.mp h⟩))))
  | mduty id p => exact .inr (.inr (.inr (.inr (.inr (.inl ⟨id, p, rfl, mdutyUnder_next.mp h⟩)))))
  | smove id d => exact .inr (.inr (.inr (.inr (.inr (.inr ⟨id, d, rfl, smoveUnder_next.mp h⟩)))))

/-! ### Boundaries and events -/

/-- What a boundary of either timer can do. -/
theorem boundary_cases (t : TimerId) (s : State) :
    (boundaryEnabled t s = false ∧ boundary t s = s) ∨
    (t = .motor ∧ s.motor.cen = 1 ∧ boundary t s = { s with motor := s.motor.latch }) ∨
    (t = .servo ∧ s.servo.cen = 1 ∧ boundary t s = { s with servo := s.servo.latch }) := by
  cases t
  · by_cases h : s.motor.cen = 1#1 <;> simp [boundary, boundaryMotor, boundaryEnabled, h]
  · by_cases h : s.servo.cen = 1#1 <;> simp [boundary, boundaryServo, boundaryEnabled, h]

/-- What taking an event can do: a command decoded and executed in the context of its port, or a boundary. -/
theorem deliver_next_cases {e : Event} {s t : State} (h : deliver e s = .next t) :
    (∃ p w i, e = .command p w ∧ decode w = .ok i ∧ exec i { s with port := p } = .next t) ∨
    (∃ tm, e = .boundary tm ∧ boundary tm s = t) := by
  cases e with
  | command p w =>
    cases hw : decode w with
    | ok i => exact .inl ⟨p, w, i, rfl, hw, by simpa [deliver, hw] using h⟩
    | error r => simp [deliver, hw] at h
  | boundary tm => exact .inr ⟨tm, rfl, by simpa [deliver] using h⟩

theorem deliver_command {p : Port} {w : CommandWord} {i : Instr} (s : State) (h : decode w = .ok i) :
    deliver (.command p w) s = exec i { s with port := p } := by
  simp [deliver, h]

end Sys2Proof.Machine
end

