-- ==== Sys2Proof/Laws/PerInstr.lean ====
section
/-!
SUPPORT. A statement about every command as syntax: the word of a command carries the command's opcode in `op` and zero
in `z` (R72, R75).
-/

namespace Sys2Proof.Laws.Opcode

/-- The `op` and `z` fields of the encoded command. -/
def Statement (i : Instr) : Prop := bits (encode i) 39 36 = i.opcode ∧ bits (encode i) 35 34 = 0

theorem of_formatC {i : Instr} {id arg : Nat} (he : encode i = formatC i.opcode id arg) (ho : i.opcode < 16)
    (hi : id < 4) (ha : arg < 4294967296) : Statement i := by
  unfold Statement
  rw [he]
  exact ⟨bits_op ho hi ha, bits_z ho hi ha⟩

theorem qinit : Statement .qinit := of_formatC (id := 0) (arg := 0) rfl (by decide) (by decide) (by decide)

theorem qedge (id : Fin 4) (raw : Phase) : Statement (.qedge id raw) :=
  of_formatC (id := id.val) (arg := raw.toNat) rfl (by simp [Instr.opcode]) id.isLt (by have := raw.isLt; omega)

theorem qread (id : Fin 4) : Statement (.qread id) :=
  of_formatC (id := id.val) (arg := 0) rfl (by simp [Instr.opcode]) id.isLt (by decide)

theorem minit : Statement .minit := of_formatC (id := 0) (arg := 0) rfl (by decide) (by decide) (by decide)

theorem sinit : Statement .sinit := of_formatC (id := 0) (arg := 0) rfl (by decide) (by decide) (by decide)

theorem mduty (id : Fin 4) (percent : Int) : Statement (.mduty id percent) :=
  of_formatC (id := id.val) (arg := trunc 32 percent) rfl (by simp [Instr.opcode]) id.isLt (trunc_lt percent)

theorem smove (id : Fin 4) (degree : Int) : Statement (.smove id degree) :=
  of_formatC (id := id.val) (arg := trunc 32 degree) rfl (by simp [Instr.opcode]) id.isLt (trunc_lt degree)

end Sys2Proof.Laws.Opcode
end

