-- ==== Sys2Proof/Laws/Play.lean ====
section
/-!
SUPPORT. Runs over a list of events, and runs of steps.
-/

namespace Sys2Proof.Machine

@[simp] theorem play_nil (s : State) : play [] s = .next s := rfl

theorem play_cons (e : Event) (w : List Event) (s : State) : play (e :: w) s = andThen (deliver e s) (play w) := rfl

theorem play_cons_next {e : Event} {w : List Event} {s t : State} :
    play (e :: w) s = .next t ↔ ∃ u, deliver e s = .next u ∧ play w u = .next t := by
  rw [play_cons, andThen_eq_next]

theorem play_append (v w : List Event) (s : State) : play (v ++ w) s = andThen (play v s) (play w) := by
  induction v generalizing s with
  | nil => rfl
  | cons e v ih =>
    rw [List.cons_append, play_cons, play_cons]
    cases deliver e s <;> simp [ih]

/-- One step and then the rest of the run. -/
theorem run_succ (n : Nat) (s : State) : core.run (n + 1) s = andThen (step s) (core.run n) := by
  refine (Host.Core.run.eq_2 core s n).trans ?_
  have h : core.step s = step s := rfl
  generalize core.step s = r at h
  subst h
  cases step s <;> rfl

/-- With nothing outstanding a step changes nothing. -/
theorem step_idle {s : State} (h : s.inputs = []) : step s = .next s := by
  simp only [step, h]

theorem step_event {s : State} {e : Event} {rest : List Event} (h : s.inputs = e :: rest) :
    step s = deliver e { s with inputs := rest } := by
  simp only [step, h]

end Sys2Proof.Machine
end

