-- ==== Sys2Proof/Tests/Slice0.lean ====
section
/-!
SUPPORT. Tests. Expected results are the words, tables and vectors of spec/ (the vector is named at each test), never
the model's own answers. The last part holds, for every statement with hypotheses, a state and operands that meet them.
-/

namespace Sys2Proof.Tests

open Sys2Proof Sys2Proof.Machine

/-- Nothing initialised, every element 0: a state for tests, not the state after reset. -/
def blank : State where
  qdec := { init := false, phase := #v[0, 0], position := #v[0, 0] }
  motor :=
    { init := false, cmd := #v[0, 0], period := 0, cmp := #v[0, 0], cmpAct := #v[0, 0], mctrl := 0, emctrl := 0, cen := 0 }
  servo :=
    { init := false, cmd := #v[0, 0, 0], period := 0, cmp := #v[0, 0, 0], cmpAct := #v[0, 0, 0], mctrl := 0, emctrl := 0,
      cen := 0 }
  port := .host
  inputs := []
  responses := []

/-- Every unit initialised. -/
def ready : State :=
  { blank with
    qdec := { blank.qdec with init := true }
    motor := { blank.motor with init := true, cen := 1 }
    servo := { blank.servo with init := true, cen := 1 } }

/-- Encoder registers as given, on the EDGE port. -/
def encoders (phase : Vector Phase 2) (position : Vector Word 2) : State :=
  { ready with qdec := { init := true, phase := phase, position := position }, port := .edge }

/-- The state a command leaves, if it leaves one. -/
def after : Result → Option State
  | .next s => some s
  | .fault _ => none
  | .refused _ => none

/-- The verdict a command gives, by its code in R161. -/
def verdict : Result → Option Nat
  | .next _ => none
  | .fault f => some f.code
  | .refused r => r.code

/-- `ready` with one outstanding event. -/
def facing (e : Event) : State := { ready with inputs := [e] }

/-! ### Well-formedness (R81) -/

theorem test_wf_refuses_percent_above : (Instr.mduty 0 2147483648).wellFormed = false := by decide
theorem test_wf_refuses_percent_below : (Instr.mduty 0 (-2147483649)).wellFormed = false := by decide
theorem test_wf_refuses_degree_above : (Instr.smove 0 2147483648).wellFormed = false := by decide
theorem test_wf_refuses_degree_below : (Instr.smove 0 (-2147483649)).wellFormed = false := by decide
theorem test_wf_accepts_the_ends :
    (Instr.mduty 3 2147483647).wellFormed = true ∧ (Instr.smove 0 (-2147483648)).wellFormed = true ∧
      (Instr.qedge 3 3).wellFormed = true := by decide

/-! ### Decoding: words written out from R72 (`oooo zz ii` and 32 bits) -/

theorem test_decode_qinit :
    decode 0b0001_00_00_00000000_00000000_00000000_00000000#40 = .ok .qinit := by decide
theorem test_decode_qedge :
    decode 0b0010_00_01_00000000_00000000_00000000_00000010#40 = .ok (.qedge 1 2) := by decide
theorem test_decode_qread :
    decode 0b0011_00_11_00000000_00000000_00000000_00000000#40 = .ok (.qread 3) := by decide
theorem test_decode_minit :
    decode 0b0100_00_00_00000000_00000000_00000000_00000000#40 = .ok .minit := by decide
theorem test_decode_sinit :
    decode 0b0101_00_00_00000000_00000000_00000000_00000000#40 = .ok .sinit := by decide
theorem test_decode_mduty :
    decode 0b0110_00_01_11111111_11111111_11111111_10011100#40 = .ok (.mduty 1 (-100)) := by decide
theorem test_decode_smove :
    decode 0b0111_00_10_01111111_11111111_11111111_11111111#40 = .ok (.smove 2 2147483647) := by decide
/-- Section 2 of 95_test_vectors.md: every must-be-zero part, both ends of the reserved opcodes, and `z`. -/
theorem test_decode_refuses :
    decode 0x1000000001#40 = .error .mustBeZeroSet ∧ decode 0x1100000000#40 = .error .mustBeZeroSet ∧
      decode 0x2000000004#40 = .error .mustBeZeroSet ∧ decode 0x3000000001#40 = .error .mustBeZeroSet ∧
      decode 0x4100000000#40 = .error .mustBeZeroSet ∧ decode 0x5000000001#40 = .error .mustBeZeroSet ∧
      decode 0x2400000000#40 = .error .zNotZero ∧ decode 0x6400000000#40 = .error .zNotZero ∧
      decode 0x0000000001#40 = .error .reservedOpcode ∧ decode 0x8000000000#40 = .error .reservedOpcode := by
  decide

/-- A row's word as the host numbers it, and a word longer than its row. -/
theorem test_table_word :
    decodeTableWord 40 0x71FFFFFFF6 = some (.smove 1 (-10)) ∧ decodeTableWord 40 0xF000000000 = none ∧
      decodeTableWord 8 0x100 = none := by decide

/-! ### The transition table (R26, R98) -/

theorem test_default_table :
    (List.finRange 4).map (fun p => (List.finRange 4).map fun n =>
      Config.cfgEx.delta (BitVec.ofFin p) (BitVec.ofFin n)) =
      [[0, 1, -1, 0], [-1, 0, 0, 1], [1, 0, 0, -1], [0, -1, 1, 0]] := by decide

/-! ### One step of each command -/

/-- VQ2. -/
theorem test_qinit_discards :
    (after (execQinit { encoders #v[3, 1] #v[0xFFFFFFF9, 1000] with port := .host })).map State.qdec =
      some { init := true, phase := #v[0, 0], position := #v[0, 0] } := by decide

/-- VE32, and the other encoder untouched. -/
theorem test_qedge_forward :
    (after (qedgeUnder Config.cfgEx 0 2 (encoders #v[3, 1] #v[10, 5]))).map State.qdec =
      some { init := true, phase := #v[2, 1], position := #v[11, 5] } := by decide

/-- VE-W2: the accumulator wraps. -/
theorem test_qedge_wraps :
    (after (qedgeUnder Config.cfgEx 1 2 (encoders #v[0, 0] #v[0, 0x80000000]))).map State.qdec =
      some { init := true, phase := #v[0, 2], position := #v[0, 0x7FFFFFFF] } := by decide

/-- VQ4, VQ7: the response, and no effect on the decoder. -/
theorem test_qread_responds :
    (after (execQread 1 { encoders #v[2, 1] #v[4, 0xFFFFFFFE] with port := .host })).map
      (fun t => (t.responses, t.qdec.position)) = some ([0xFFFFFFFE], #v[4, 0xFFFFFFFE]) := by decide

/-- Timer M with other values in its compare registers and active. -/
def driven : State := { ready with motor := { ready.motor with cmp := #v[7, 8], cmpAct := #v[5, 6] } }

/-- VI1, and step 5 of P6: the defaults come back, the active values stay. -/
theorem test_minit :
    (after (minitUnder Config.cfgEx driven)).map (fun t => (t.motor.cmd, t.motor.cmp)) =
      some (#v[50, 50], #v[625, 625]) := by decide +kernel

theorem test_minit_keeps_active :
    (after (minitUnder Config.cfgEx driven)).map (fun t => t.motor.cmpAct) = some #v[5, 6] := by decide

/-- VI2. -/
theorem test_sinit :
    (after (sinitUnder Config.cfgEx blank)).map State.servo =
      some
        { init := true, cmd := #v[90, 90, 90], period := 20000, cmp := #v[1850, 1850, 1850], cmpAct := #v[0, 0, 0],
          mctrl := 0, emctrl := 0, cen := 1 } := by decide

/-- VM16: toward zero, not floor. -/
theorem test_mduty_truncates :
    (after (mdutyUnder Config.cfgEx 0 (-3) ready)).map (fun t => (t.motor.cmd, t.motor.cmp)) =
      some (#v[0xFFFFFFFD, 0], #v[0xFFFFFFDB, 0]) := by decide

/-- VM22: bit 32 is dropped. -/
theorem test_mduty_drops_high_bits :
    (after (mdutyUnder Config.cfgEx 1 343597384 ready)).map (fun t => t.motor.cmp) = some #v[0, 4] := by decide

/-- VS17. -/
theorem test_smove_folds_back :
    (after (smoveUnder Config.cfgEx 0 (-181) ready)).map (fun t => (t.servo.cmd, t.servo.cmp)) =
      some (#v[179, 0, 0], #v[1939, 0, 0]) := by decide

/-- VS21, on channel 2 (VF10: servo 2 exists). -/
theorem test_smove_lowest_operand :
    (after (smoveUnder Config.cfgEx 2 (-2147483648) ready)).map (fun t => t.servo.cmp) = some #v[0, 0, 1812] := by decide

/-- VI8 and VI7: only the last write becomes active, and a second boundary changes nothing. -/
theorem test_boundary_latches :
    (after (andThen (mdutyUnder Config.cfgEx 0 10 ready) (mdutyUnder Config.cfgEx 0 90))).map
      (fun t => ((boundary .motor t).motor.cmpAct, decide (boundary .motor (boundary .motor t) = boundary .motor t),
        (boundary .servo t).servo.cmpAct)) = some (#v[1125, 0], true, #v[0, 0, 0]) := by decide

/-! ### Verdicts (section 8 of 95_test_vectors.md) -/

/-- VF1, VF2, VF3, and VF15, VF16: port before flag before id. -/
theorem test_verdicts_after_reset :
    verdict (deliver (.command .host 0x3000000000#40) State.reset) = some 3 ∧
      verdict (deliver (.command .edge 0x2000000001#40) State.reset) = some 3 ∧
      verdict (deliver (.command .host 0x6000000032#40) State.reset) = some 3 ∧
      verdict (deliver (.command .host 0x2200000001#40) State.reset) = some 2 ∧
      verdict (deliver (.command .edge 0x2200000001#40) State.reset) = some 3 :=
  ⟨rfl, rfl, rfl, rfl, rfl⟩

/-- VF6, VF7, VF8, VF9. -/
theorem test_bad_ids :
    verdict (deliver (.command .edge 0x2200000001#40) ready) = some 4 ∧
      verdict (deliver (.command .host 0x3300000000#40) ready) = some 4 ∧
      verdict (deliver (.command .host 0x6200000000#40) ready) = some 4 ∧
      verdict (deliver (.command .host 0x7300000000#40) ready) = some 4 :=
  ⟨rfl, rfl, rfl, rfl⟩

/-- VF12, VF13, VF14, VF17. -/
theorem test_wrong_port_and_invalid :
    verdict (deliver (.command .edge 0x3000000000#40) ready) = some 2 ∧
      verdict (deliver (.command .edge 0x1000000000#40) ready) = some 2 ∧
      verdict (deliver (.command .edge 0x4000000000#40) ready) = some 2 ∧
      verdict (deliver (.command .edge 0xFFFFFFFFFF#40) ready) = some 1 ∧
      verdict (deliver (.command .host 0x1000000001#40) blank) = some 1 :=
  ⟨rfl, rfl, rfl, rfl, rfl⟩

/-! ### The interface -/

/-- VQ1: a placed word is the next event, on its own port. -/
theorem test_placed_word_runs :
    (after (step (State.reset.withFetchWord 40 0x1000000000))).map State.qdec =
      some { init := true, phase := #v[0, 0], position := #v[0, 0] } := by decide

theorem test_placed_edge_word_is_on_edge :
    (blank.withFetchWord 40 0x2000000001).inputs = [.command .edge 0x2000000001#40] := by decide

/-- R168 and S5: line B of encoder 1 fires with A low and B high; raw is 1. -/
theorem test_edge_event : edgeEvent (.lineB 1) false true = .command .edge 0x2100000001#40 := by decide

/-- R71: the outputs follow the elements. -/
theorem test_pins : ready.pins.mCen = 1 ∧ ready.pins.sCmp = ready.servo.cmp ∧ ready.hostRdata = none := by decide

/-- R81: a comment line, a bad mnemonic, a misplaced port prefix. -/
theorem test_assembler :
    assembleLine [' ', ';', 'x'] = some none ∧ assembleLine ['Q', 'I', 'N'] = none ∧
      assembleLine ['E', ':', ' ', 'P', 'B', 'O', 'U', 'N', 'D', ' ', 'M'] = none := by decide

/-! ### Witnesses: the hypotheses of each statement can be met -/

theorem test_witness_round_trips :
    (Instr.smove 3 2147483647).wellFormed = true ∧ decode 0x737FFFFFFF#40 = .ok (.smove 3 2147483647) ∧
      (∃ r₁ ∈ opcodeTable, 0x1000000000#40 &&& r₁.mask = r₁.pattern) := by decide

/-- Both ends of the reserved opcodes, `z`, and each must-be-zero part match no row. -/
theorem test_witness_invalid_words :
    ∀ w ∈ [0x0FFFFFFFFF#40, 0x8000000000#40, 0x1C00000000#40, 0x5300000000#40, 0x2000000004#40, 0x3080000000#40],
      ∀ row ∈ opcodeTable, w &&& row.mask ≠ row.pattern := by
  intro w hw
  fin_cases hw <;> decide

theorem test_witness_step :
    (facing (.command .host 0x3100000000#40)).inputs = .command .host 0x3100000000#40 :: [] ∧
      decode 0x3100000000#40 = .ok (.qread 1) ∧
      (∃ t, step (facing (.command .host 0x3100000000#40)) = .next t) ∧
      (∃ t, step (facing (.boundary .servo)) = .next t) :=
  ⟨rfl, by decide, ⟨_, rfl⟩, ⟨_, rfl⟩⟩

/-- Statements about runs: one that finishes, one that faults and one that is refused. -/
theorem test_witness_runs :
    FinishedRun (facing (.boundary .motor)) (boundary .motor ready) ∧
      core.run 1 { blank with inputs := [.command .host 0x3000000000#40] } = .fault .uninitialised ∧
      core.run 1 (facing (.command .edge 0#40)) = .refused (.invalidWord .reservedOpcode) :=
  ⟨⟨1, rfl, rfl⟩, rfl, rfl⟩

/-- One command for each case of the verdicts, at the boundary of the ids. -/
theorem test_witness_verdicts :
    decode 0x7300000000#40 = .ok (.smove 3 0) ∧ decode 0x7200000000#40 = .ok (.smove 2 0) ∧
      Port.edge ≠ (Instr.smove 2 0).port ∧ unitReady (.smove 2 0) blank = false ∧ unitReady (.smove 3 0) ready = true ∧
      idExists (.smove 3 0) = false ∧ idExists (.smove 2 0) = true ∧ decode 0x0000000000#40 = .error .reservedOpcode := by
  decide

theorem test_witness_uninitialised :
    blank.qdec.init = false ∧ blank.motor.init = false ∧ blank.servo.init = false ∧ blank.port = .host ∧
      ({ blank with port := .edge } : State).port = .edge := by decide

theorem test_witness_start_up :
    [ownPortEvent .sinit, ownPortEvent .qinit, ownPortEvent .minit].Perm
      [ownPortEvent .qinit, ownPortEvent .minit, ownPortEvent .sinit] := by decide

/-- The cases of QINIT, QEDGE and QREAD, the last existing encoder and the first that does not exist. -/
theorem test_witness_decoder_cases :
    ready.port = .host ∧ ({ ready with port := .edge } : State).port ≠ .host ∧ ready.port ≠ .edge ∧
      ({ blank with port := .edge } : State).qdec.init = false ∧ (encoders #v[0, 0] #v[0, 0]).port = .edge ∧
      (encoders #v[0, 0] #v[0, 0]).qdec.init = true ∧ 2 ≤ (2 : Fin 4).val ∧ (1 : Fin 2).val = (1 : Fin 4).val := by decide

/-- Both ends of the accumulator, with a step over each. -/
theorem test_witness_wrap :
    ((encoders #v[0, 0] #v[0x7FFFFFFF, 0x80000000]).qdec.position[(0 : Fin 2)]).toInt = 2147483647 ∧
      ((encoders #v[0, 0] #v[0x7FFFFFFF, 0x80000000]).qdec.position[(1 : Fin 2)]).toInt = -2147483648 ∧
      Config.cfgEx.delta 0 1 = 1 ∧ Config.cfgEx.delta 0 2 = -1 := by decide

theorem test_witness_tiers :
    (∀ p : Phase, Config.cfgEx.delta p p = 0 ∧ Config.cfgEx.delta p (p ^^^ 3#2) = 0) ∧
      (Config.cfgEx.delta 0 1 = 1 ∧ Config.cfgEx.delta 1 3 = 1 ∧ Config.cfgEx.delta 3 2 = 1 ∧
        Config.cfgEx.delta 2 0 = 1) ∧ Config.cfgEx.tt = ttDefault := by decide

/-- A run that counts, with a read, a command of PWMX and a boundary between its edges. -/
def countingRun : List Event :=
  [ownPortEvent (.qedge 0 1), qreadEvent 0, ownPortEvent .minit, ownPortEvent (.qedge 1 2), .boundary .motor]

/-- The same run in another order. -/
def countingRun' : List Event :=
  [ownPortEvent (.qedge 0 1), ownPortEvent (.qedge 1 2), .boundary .motor, qreadEvent 0, ownPortEvent .minit]

/-- What each agent issues in it. -/
def countingIssued : Agent → List Event
  | .edge => [ownPortEvent (.qedge 0 1), ownPortEvent (.qedge 1 2)]
  | .host => [qreadEvent 0, ownPortEvent .minit]
  | .timer .motor => [.boundary .motor]
  | .timer .servo => []

theorem test_witness_counting_run :
    (∀ e ∈ countingRun, e.notQinit = true) ∧ (∃ t, play (qinitEvent :: countingRun) blank = .next t) ∧
      (∃ t, play (qinitEvent :: countingRun') blank = .next t) ∧ (edgesOf 0 countingRun).length < 2147483648 :=
  ⟨by decide, ⟨_, rfl⟩, ⟨_, rfl⟩, by decide⟩

theorem test_witness_two_orders :
    IsTotalOrder countingIssued countingRun ∧ IsTotalOrder countingIssued countingRun' := by
  constructor <;> intro a <;> rcases a with _ | _ | _ | _ <;> decide

theorem test_witness_cross_encoder :
    (0 : Fin 4) ≠ 1 ∧ (1 : Fin 2) ≠ 0 ∧
      ∃ t, play [qreadEvent 1, ownPortEvent (.qedge ((0 : Fin 2).castLE (by decide)) 3)] ready = .next t :=
  ⟨by decide, by decide, ⟨_, rfl⟩⟩

/-- QDEC changes under QINIT and under QEDGE. -/
theorem test_witness_decoder_writes :
    (∃ t, deliver qinitEvent blank = .next t ∧ t.qdec ≠ blank.qdec) ∧
      (∃ t, deliver (ownPortEvent (.qedge 0 3)) ready = .next t ∧ t.qdec ≠ ready.qdec) :=
  ⟨⟨_, rfl, by decide⟩, ⟨_, rfl, fun h => absurd (congrArg (fun q => q.phase[(0 : Fin 2)]) h) (by decide)⟩⟩

/-- The ends of the operand range, the last existing channel and the first that does not exist, for MDUTY and SMOVE. -/
theorem test_witness_actuator_cases :
    inArgRange (-2147483648) = true ∧ inArgRange 2147483647 = true ∧ ready.motor.init = true ∧ ready.servo.init = true ∧
      (1 : Fin 2).val = (1 : Fin 4).val ∧ 2 ≤ (2 : Fin 4).val ∧ (2 : Fin 3).val = (2 : Fin 4).val ∧ 3 ≤ (3 : Fin 4).val ∧
      ({ ready with port := .edge } : State).port ≠ .host := by decide

/-- The last duty whose ticks fit the register (VM21), and an odd product on either side of 0. -/
theorem test_witness_ticks :
    motorTicks Config.cfgEx 343597383 < 4294967296 ∧ Config.cfgEx.ticksPerUs * 100 % 2 = 0 ∧
      Config.cfgEx.ticksPerUs * 1 % 2 = 1 ∧ Config.cfgEx.ticksPerUs * (-1) % 2 = 1 := by decide

/-- The ends of a period of the angle, and a shift by a whole period. -/
theorem test_witness_angles :
    inArgRange (179 + 180 * (-1)) = true ∧ emod (-2) 180 < 179 ∧ emod (-1) 180 = 179 ∧
      ∃ t, exec (.smove 2 (-1)) ready = .next t :=
  ⟨by decide, by decide, by decide, ⟨_, rfl⟩⟩

/-- Events that are no PWMX command and change nothing on the pins. -/
theorem test_witness_not_pwm :
    (qreadEvent 0).isPwm = false ∧ (Event.boundary .motor).isPwm = false ∧ (∃ t, deliver (qreadEvent 0) ready = .next t) :=
  ⟨by decide, by decide, ⟨_, rfl⟩⟩

theorem test_witness_boundaries :
    (facing (.boundary .motor)).motor.cen = 1 ∧ (facing (.boundary .servo)).servo.cen = 1 ∧ blank.motor.cen = 0 ∧
      blank.servo.cen = 0 ∧ ({ blank with inputs := [.boundary .servo] } : State).inputs = .boundary .servo :: [] := by
  decide

/-- The recommended period (R133) and both ends of the duty range, under `CFG_EX`. -/
theorem test_witness_full_scale :
    Config.cfgEx.motorPeriod = motorTicks Config.cfgEx 100 ∧ Config.cfgEx.ticksPerUs * 0 % 2 = 0 ∧
      Config.cfgEx.ticksPerUs * 100 % 2 = 0 ∧
      (({ ready with motor := { ready.motor with period := 1250 } } : State).motor.period.toNat : Int) =
        Config.cfgEx.motorPeriod := by decide

/-- A state that meets the invariant with timer M running, and a step from it. -/
theorem test_witness_invariant :
    ∃ s t : State, MachineInv s ∧ s.motor.init = true ∧ step s = .next t := by
  refine
    ⟨{ blank with
        motor :=
          { blank.motor with
            init := true, cen := 1
            cmp := #v[motorCompare Config.actual 0, motorCompare Config.actual 0]
            period := storeUnsigned Config.actual.motorPeriod
            mctrl := Config.actual.motorMctrlInit
            emctrl := Config.actual.motorEmctrlInit }
        inputs := [ownPortEvent (.mduty 0 7)] }, _, ⟨?_, ?_, ?_, ?_, ?_, ?_⟩, rfl, rfl⟩
  · intro _ m
    fin_cases m <;> simp [motorCompare, motorTicks, blank]
  · intro h
    cases h
  · have := motorPeriod_range Config.actual
    exact fun _ => ⟨by simpa using trunc_of_range (by omega) (by omega), rfl, rfl⟩
  · intro h
    cases h
  · decide
  · decide

/-- Every flag set and both timers running, and a step from there. -/
theorem test_witness_flags :
    (facing qinitEvent).qdec.init = true ∧ (facing qinitEvent).motor.cen = 1 ∧ (facing qinitEvent).servo.cen = 1 ∧
      ∃ t, step (facing qinitEvent) = .next t :=
  ⟨rfl, rfl, rfl, ⟨_, rfl⟩⟩

/-- A QDEC command with a PWMX command and with a boundary, in both orders. -/
theorem test_witness_units :
    (qreadEvent 0).isQdec = true ∧ (ownPortEvent (.smove 2 5)).isPwm = true ∧ (Event.boundary .servo).isBoundary = true ∧
      (∃ t, play [qreadEvent 0, ownPortEvent (.smove 2 5)] ready = .next t) ∧
      (∃ t, play [.boundary .servo, qreadEvent 0] ready = .next t) :=
  ⟨by decide, by decide, rfl, ⟨_, rfl⟩, ⟨_, rfl⟩⟩

theorem test_witness_timers :
    (ownPortEvent (.mduty 1 5)).timer? = some .motor ∧ (Event.boundary .servo).timer? = some .servo ∧
      (∃ t, play [ownPortEvent (.mduty 1 5), .boundary .servo] ready = .next t) ∧
      (∃ t, play [.boundary .servo, ownPortEvent (.mduty 1 5)] ready = .next t) :=
  ⟨by decide, rfl, ⟨_, rfl⟩, ⟨_, rfl⟩⟩

theorem test_witness_edge : ready.qdec.init = true ∧
    ({ ready with inputs := [edgeEvent (.lineA 1) true false] } : State).inputs = edgeEvent (.lineA 1) true false :: [] := by
  decide

/-- Boundaries for ever: an endless run, fair to its timer, from a state in which that timer runs. -/
theorem test_witness_fairness (tm : TimerId) :
    FairFor tm (fun _ => .boundary tm) ready ∧ (∀ n, ∃ t, along (fun _ => .boundary tm) ready n = .next t) ∧
      along (fun _ => .boundary tm) ready 0 = .next ready ∧ boundaryEnabled tm ready = true := by
  have h : ∀ (l : List Nat) (s : State), ∃ t, play (l.map fun _ => .boundary tm) s = .next t := by
    intro l
    induction l with
    | nil => exact fun s => ⟨s, rfl⟩
    | cons _ l ih => exact fun s => ih (boundary tm s)
  exact ⟨fun n _ => ⟨n, Nat.le_refl n, rfl⟩, fun n => h _ _, rfl, by cases tm <;> decide⟩

end Sys2Proof.Tests
end

section
/-!
PROOFS. The scope family: where the accumulator wraps (R9, R92, R94), and the independence of QDEC and PWMX (R61).

Independence is proved once for any two views of the state: an event that acts on one view reads nothing but that view and
leaves the other as it was, so two events that act on complementary views commute on both.
-/

namespace Sys2Proof.Machine

/-! ### The accumulator -/

/-- R92: an edge completes under its guards, adds the table entry with `wrap_32`, and leaves the flag, PWMX and the
responses as they were. -/
theorem qedgeUnder_adds_delta (c : Config) {id : Fin 4} (raw : Phase) {s : State} {i : Fin 2} (hp : s.port = .edge)
    (hq : s.qdec.init = true) (h : i.val = id.val) :
    ∃ t, qedgeUnder c id raw s = .next t ∧
      (t.qdec.position[i]).toInt = wrap 32 ((s.qdec.position[i]).toInt + c.delta s.qdec.phase[i] raw) ∧
      t.qdec.init = s.qdec.init ∧ t.motor = s.motor ∧ t.servo = s.servo ∧ t.responses = s.responses := by
  refine ⟨_, qedgeUnder_eq c raw hp hq h, ?_, rfl, rfl, rfl, rfl⟩
  rw [Qdec.edge_position, set_same, storeSigned_toInt]

theorem wrap_above_max : wrap 32 (2147483647 + 1) = -2147483648 := by decide

theorem wrap_below_min : wrap 32 (-2147483648 + -1) = 2147483647 := by decide

/-- Settles O20: one edge adds the table entry with `wrap_32`, and `wrap_32` joins the two ends of the range. -/
theorem positionWrapsAtItsEnds : Obligations.PositionWrapsAtItsEnds := by
  intro c id raw s i hp hq hi
  obtain ⟨t, ht, hpos, hframe⟩ := qedgeUnder_adds_delta c raw hp hq hi
  constructor
  · intro hmax hplus
    exact ⟨t, ht, by rw [hpos, hmax, hplus, wrap_above_max], hframe⟩
  · intro hmin hminus
    exact ⟨t, ht, by rw [hpos, hmin, hminus, wrap_below_min], hframe⟩

/-! ### Events that act on one view of the state -/

/-- The event's answer, and what it does to `view`, depend on `view` alone, and it leaves `rest` as it was. -/
def Event.ActsOn {α β : Type} (view : State → α) (rest : State → β) (e : Event) : Prop :=
  ∀ s u s' : State, deliver e s = .next u → view s' = view s →
    ∃ u', deliver e s' = .next u' ∧ view u' = view u ∧ rest u' = rest s'

section ActsOn
variable {α β : Type} {view : State → α} {rest : State → β} {e f : Event}

theorem Event.ActsOn.keeps_rest (he : e.ActsOn view rest) {s u : State} (h : deliver e s = .next u) :
    rest u = rest s := by
  obtain ⟨u', hu', -, hrest⟩ := he s u s h rfl
  rw [h] at hu'
  cases hu'
  exact hrest

/-- Two events that act on complementary views can be taken in the other order, with both views as before. -/
theorem Event.ActsOn.commute (he : e.ActsOn view rest) (hf : f.ActsOn rest view) {s t : State}
    (h : play [e, f] s = .next t) :
    ∃ t', play [f, e] s = .next t' ∧ view t = view t' ∧ rest t = rest t' := by
  obtain ⟨u, hu, h⟩ := play_cons_next.mp h
  obtain ⟨t₀, ht, h₀⟩ := play_cons_next.mp h
  cases h₀
  obtain ⟨v, hv, hrest_v, hview_v⟩ := hf u t s ht (he.keeps_rest hu).symm
  obtain ⟨t', ht', hview_t', hrest_t'⟩ := he s u v hu hview_v
  refine ⟨t', play_cons_next.mpr ⟨v, hv, play_cons_next.mpr ⟨t', ht', rfl⟩⟩, ?_, ?_⟩
  · rw [hview_t', hf.keeps_rest ht]
  · rw [hrest_t', hrest_v]

end ActsOn

/-! ### The two units -/

/-- QDEC and the responses only it gives (R96). -/
def decoderView (s : State) : Qdec × List Word := (s.qdec, s.responses)

/-- PWMX: both timers (R31). -/
def pwmView (s : State) : Pwm 2 Word × Pwm 3 (Fin 180) := (s.motor, s.servo)

theorem decoderView_eq {s t : State} :
    decoderView s = decoderView t ↔ s.qdec = t.qdec ∧ s.responses = t.responses := Prod.mk_inj

theorem pwmView_eq {s t : State} : pwmView s = pwmView t ↔ s.motor = t.motor ∧ s.servo = t.servo :=
  Prod.mk_inj

/-- Between them the two views hold all that `SameArch` compares. -/
theorem sameArch_of_views {s t : State} (hd : decoderView s = decoderView t) (hp : pwmView s = pwmView t) :
    SameArch s t := by
  obtain ⟨hqdec, hresponses⟩ := decoderView_eq.mp hd
  obtain ⟨hmotor, hservo⟩ := pwmView_eq.mp hp
  exact ⟨hqdec, hmotor, hservo, hresponses⟩

/-- A QDEC command reads and writes QDEC and the responses only. -/
theorem exec_qdec_local {i : Instr} (hi : i.isPwm = false) {s u s' : State} (h : exec i s = .next u)
    (hport : s'.port = s.port) (hview : decoderView s' = decoderView s) :
    ∃ u', exec i s' = .next u' ∧ decoderView u' = decoderView u ∧ pwmView u' = pwmView s' := by
  obtain ⟨hqdec, hresponses⟩ := decoderView_eq.mp hview
  cases i with
  | qinit =>
    obtain ⟨hp, rfl⟩ := execQinit_next.mp h
    exact ⟨_, execQinit_next.mpr ⟨hport.trans hp, rfl⟩, by simp [decoderView, hresponses], rfl⟩
  | qedge id raw =>
    obtain ⟨hp, hq, k, hk, rfl⟩ := qedgeUnder_next.mp h
    exact ⟨_, qedgeUnder_eq _ raw (hport.trans hp) (hqdec ▸ hq) hk, by simp [decoderView, hqdec, hresponses], rfl⟩
  | qread id =>
    obtain ⟨hp, hq, k, hk, rfl⟩ := execQread_next.mp h
    exact ⟨_, execQread_eq (hport.trans hp) (hqdec ▸ hq) hk, by simp [decoderView, hqdec, hresponses], rfl⟩
  | minit | sinit | mduty | smove => cases hi

/-- A PWMX command reads and writes the timers only. -/
theorem exec_pwm_local {i : Instr} (hi : i.isPwm = true) {s u s' : State} (h : exec i s = .next u)
    (hport : s'.port = s.port) (hview : pwmView s' = pwmView s) :
    ∃ u', exec i s' = .next u' ∧ pwmView u' = pwmView u ∧ decoderView u' = decoderView s' := by
  obtain ⟨hmotor, hservo⟩ := pwmView_eq.mp hview
  cases i with
  | minit =>
    obtain ⟨hp, rfl⟩ := minitUnder_next.mp h
    exact ⟨_, minitUnder_next.mpr ⟨hport.trans hp, rfl⟩, by simp [pwmView, hmotor, hservo], rfl⟩
  | sinit =>
    obtain ⟨hp, rfl⟩ := sinitUnder_next.mp h
    exact ⟨_, sinitUnder_next.mpr ⟨hport.trans hp, rfl⟩, by simp [pwmView, hmotor, hservo], rfl⟩
  | mduty id percent =>
    obtain ⟨hp, hm, k, hk, rfl⟩ := mdutyUnder_next.mp h
    exact ⟨_, mdutyUnder_eq _ percent (hport.trans hp) (hmotor ▸ hm) hk, by simp [pwmView, hmotor, hservo], rfl⟩
  | smove id degree =>
    obtain ⟨hp, hs, k, hk, rfl⟩ := smoveUnder_next.mp h
    exact ⟨_, smoveUnder_eq _ degree (hport.trans hp) (hservo ▸ hs) hk, by simp [pwmView, hmotor, hservo], rfl⟩
  | qinit | qedge | qread => cases hi

/-- A boundary leaves QDEC and the responses as they were (R131). -/
theorem decoderView_boundary (tm : TimerId) (s : State) : decoderView (boundary tm s) = decoderView s := by
  obtain ⟨-, h⟩ | ⟨-, -, h⟩ | ⟨-, -, h⟩ := boundary_cases tm s <;> rw [h] <;> rfl

theorem pwmView_boundary_motor (s : State) :
    pwmView (boundary .motor s) = (if s.motor.cen = 1 then s.motor.latch else s.motor, s.servo) := by
  by_cases h : s.motor.cen = 1#1 <;> simp [boundary, boundaryMotor, boundaryEnabled, pwmView, h]

theorem pwmView_boundary_servo (s : State) :
    pwmView (boundary .servo s) = (s.motor, if s.servo.cen = 1 then s.servo.latch else s.servo) := by
  by_cases h : s.servo.cen = 1#1 <;> simp [boundary, boundaryServo, boundaryEnabled, pwmView, h]

/-- What a boundary does to the timers depends on the timers alone (R131). -/
theorem pwmView_boundary_congr (tm : TimerId) {s s' : State} (h : pwmView s' = pwmView s) :
    pwmView (boundary tm s') = pwmView (boundary tm s) := by
  obtain ⟨hmotor, hservo⟩ := pwmView_eq.mp h
  cases tm with
  | motor => rw [pwmView_boundary_motor, pwmView_boundary_motor, hmotor, hservo]
  | servo => rw [pwmView_boundary_servo, pwmView_boundary_servo, hmotor, hservo]

/-! ### The events of each unit -/

theorem Event.instr?_eq_some {e : Event} {i : Instr} (h : e.instr? = some i) :
    ∃ p w, e = .command p w ∧ decode w = .ok i := by
  cases e with
  | command p w =>
    refine ⟨p, w, rfl, ?_⟩
    cases hw : decode w <;> simp_all [Event.instr?, Except.toOption]
  | boundary tm => cases h

theorem Event.isQdec_iff {e : Event} : e.isQdec = true ↔ ∃ i, e.instr? = some i ∧ i.isPwm = false := by
  cases h : e.instr? <;> simp [Event.isQdec, h]

theorem Event.isPwm_iff {e : Event} : e.isPwm = true ↔ ∃ i, e.instr? = some i ∧ i.isPwm = true := by
  cases h : e.instr? <;> simp [Event.isPwm, h]

theorem actsOn_of_isQdec {e : Event} (he : e.isQdec = true) : e.ActsOn decoderView pwmView := by
  obtain ⟨i, hinstr, hi⟩ := Event.isQdec_iff.mp he
  obtain ⟨p, w, rfl, hw⟩ := Event.instr?_eq_some hinstr
  intro s u s' h hview
  rw [deliver_command _ hw] at h ⊢
  exact exec_qdec_local hi h rfl hview

theorem actsOn_of_isPwm {e : Event} (he : e.isPwm = true) : e.ActsOn pwmView decoderView := by
  obtain ⟨i, hinstr, hi⟩ := Event.isPwm_iff.mp he
  obtain ⟨p, w, rfl, hw⟩ := Event.instr?_eq_some hinstr
  intro s u s' h hview
  rw [deliver_command _ hw] at h ⊢
  exact exec_pwm_local hi h rfl hview

theorem actsOn_of_isBoundary {e : Event} (he : e.isBoundary = true) : e.ActsOn pwmView decoderView := by
  cases e with
  | command p w => cases he
  | boundary tm =>
    intro s u s' h hview
    cases h
    exact ⟨boundary tm s', rfl, pwmView_boundary_congr tm hview, decoderView_boundary tm s'⟩

/-- Settles O48: a QDEC command acts on QDEC and the responses, a PWMX command or a boundary on the timers, and events
that act on complementary views commute. -/
theorem unitsAreIndependent : Obligations.UnitsAreIndependent := by
  intro e f s t he hf
  have hqdec : e.ActsOn decoderView pwmView := actsOn_of_isQdec he
  have hpwm : f.ActsOn pwmView decoderView := hf.elim actsOn_of_isPwm actsOn_of_isBoundary
  constructor
  · intro h
    obtain ⟨t', ht', hd, hp⟩ := hqdec.commute hpwm h
    exact ⟨t', ht', sameArch_of_views hd hp⟩
  · intro h
    obtain ⟨t', ht', hp, hd⟩ := hpwm.commute hqdec h
    exact ⟨t', ht', sameArch_of_views hd hp⟩

end Sys2Proof.Machine
end

section
/-!
PROOFS. What a step can do to each part of the state, once: PWMX a timer at a time (R29 to R33), then the validity flag
and the registers of QDEC (R21 to R23). The invariants of the state are read off from it.

The two timers obey one law each under their own constants, so the law and the four moves of a timer are stated for any
timer; `machineInv_iff` says that the invariant is that law of both.
-/

namespace Sys2Proof.Machine

/-! ### One timer -/

/-- The constants of a timer (R7): its compare formula and what its initialisation writes. -/
structure TimerConstants (n : Nat) (α : Type) where
  ticks : α → Word
  period : Word
  mctrl : Word
  emctrl : Word
  defaults : Fin n → α

section Timer
variable {n : Nat} {α : Type} (k : TimerConstants n α) {p q : Pwm n α}

/-- Everything one event can do to a timer: nothing, its initialisation (R121, R123), a command to one channel of an
initialised timer (R125, R128), a boundary (R131). -/
inductive Pwm.Move (p : Pwm n α) : Pwm n α → Prop
  | stay : Move p p
  | initialise : Move p (p.initialise k.ticks k.period k.mctrl k.emctrl k.defaults)
  | command (hinit : p.init = true) (ch : Fin n) (v : α) : Move p (p.command k.ticks ch v)
  | latch : Move p p.latch

/-- The law of one timer (R29, R30, R33). -/
structure Pwm.Lawful (p : Pwm n α) : Prop where
  cmp : p.init = true → ∀ ch : Fin n, p.cmp[ch] = k.ticks p.cmd[ch]
  constants : p.init = true → p.period = k.period ∧ p.mctrl = k.mctrl ∧ p.emctrl = k.emctrl
  cen : p.cen = 1 ↔ p.init = true

variable {k}

theorem Pwm.initialise_lawful (p : Pwm n α) :
    (p.initialise k.ticks k.period k.mctrl k.emctrl k.defaults).Lawful k where
  cmp _ ch := by simp [Fin.getElem_fin]
  constants _ := ⟨rfl, rfl, rfl⟩
  cen := ⟨fun _ => rfl, fun _ => rfl⟩

/-- A command writes its channel's compare register by the formula and no other channel. -/
theorem Pwm.Lawful.command (h : p.Lawful k) (ch : Fin n) (v : α) : (p.command k.ticks ch v).Lawful k where
  cmp hinit j := by
    rw [Pwm.command_cmp, Pwm.command_cmd]
    by_cases hj : j = ch
    · rw [hj, set_same, set_same]
    · rw [set_other _ _ _ _ hj, set_other _ _ _ _ hj, h.cmp hinit j]
  constants := h.constants
  cen := h.cen

theorem Pwm.Lawful.latch (h : p.Lawful k) : p.latch.Lawful k := ⟨h.cmp, h.constants, h.cen⟩

theorem Pwm.Move.keeps_lawful (hm : p.Move k q) (h : p.Lawful k) : q.Lawful k := by
  cases hm with
  | stay => exact h
  | initialise => exact p.initialise_lawful
  | command _ ch v => exact h.command ch v
  | latch => exact h.latch

theorem Pwm.Move.keeps_init (hm : p.Move k q) (h : p.init = true) : q.init = true := by
  cases hm with
  | initialise => rfl
  | stay | command | latch => exact h

theorem Pwm.Move.keeps_cen (hm : p.Move k q) (h : p.cen = 1) : q.cen = 1 := by
  cases hm with
  | initialise => rfl
  | stay | command | latch => exact h

end Timer

/-! ### The two timers of CORE -/

/-- The constants of timer M (R120, R121). -/
def motorConstants : TimerConstants 2 Word where
  ticks := motorCompare Config.actual
  period := storeUnsigned Config.actual.motorPeriod
  mctrl := Config.actual.motorMctrlInit
  emctrl := Config.actual.motorEmctrlInit
  defaults m := storeSigned (Config.actual.motorDefaultPercent m)

/-- The constants of timer S (R120, R123). -/
def servoConstants : TimerConstants 3 (Fin 180) where
  ticks := servoCompare Config.actual
  period := storeUnsigned Config.actual.servoPeriod
  mctrl := Config.actual.servoMctrlInit
  emctrl := Config.actual.servoEmctrlInit
  defaults ch := Config.actual.servoDefault[ch]

theorem exec_moves_timers {i : Instr} {s t : State} (h : exec i s = .next t) :
    s.motor.Move motorConstants t.motor ∧ s.servo.Move servoConstants t.servo := by
  cases i with
  | qinit =>
    obtain ⟨-, rfl⟩ := execQinit_next.mp h
    exact ⟨.stay, .stay⟩
  | qedge id raw =>
    obtain ⟨-, -, _, -, rfl⟩ := qedgeUnder_next.mp h
    exact ⟨.stay, .stay⟩
  | qread id =>
    obtain ⟨-, -, _, -, rfl⟩ := execQread_next.mp h
    exact ⟨.stay, .stay⟩
  | minit =>
    obtain ⟨-, rfl⟩ := minitUnder_next.mp h
    exact ⟨.initialise, .stay⟩
  | sinit =>
    obtain ⟨-, rfl⟩ := sinitUnder_next.mp h
    exact ⟨.stay, .initialise⟩
  | mduty id percent =>
    obtain ⟨-, hinit, m, -, rfl⟩ := mdutyUnder_next.mp h
    exact ⟨.command hinit m _, .stay⟩
  | smove id degree =>
    obtain ⟨-, hinit, ch, -, rfl⟩ := smoveUnder_next.mp h
    exact ⟨.stay, .command hinit ch _⟩

theorem boundary_moves_timers (tm : TimerId) (s : State) :
    s.motor.Move motorConstants (boundary tm s).motor ∧ s.servo.Move servoConstants (boundary tm s).servo := by
  obtain ⟨-, h⟩ | ⟨-, -, h⟩ | ⟨-, -, h⟩ := boundary_cases tm s <;> rw [h]
  · exact ⟨.stay, .stay⟩
  · exact ⟨.latch, .stay⟩
  · exact ⟨.stay, .latch⟩

theorem deliver_moves_timers {e : Event} {s t : State} (h : deliver e s = .next t) :
    s.motor.Move motorConstants t.motor ∧ s.servo.Move servoConstants t.servo := by
  obtain ⟨p, w, i, rfl, -, hexec⟩ | ⟨tm, rfl, rfl⟩ := deliver_next_cases h
  · exact (exec_moves_timers hexec :)
  · exact boundary_moves_timers tm s

/-- What a step can do: nothing when no event is outstanding, or take the first event. -/
theorem step_next_cases {s t : State} (h : step s = .next t) :
    s = t ∨ ∃ e rest, s.inputs = e :: rest ∧ deliver e { s with inputs := rest } = .next t := by
  cases hin : s.inputs with
  | nil =>
    rw [step_idle hin] at h
    cases h
    exact .inl rfl
  | cons e rest => exact .inr ⟨e, rest, rfl, step_event hin ▸ h⟩

theorem step_moves_timers {s t : State} (h : step s = .next t) :
    s.motor.Move motorConstants t.motor ∧ s.servo.Move servoConstants t.servo := by
  obtain rfl | ⟨e, rest, -, he⟩ := step_next_cases h
  · exact ⟨.stay, .stay⟩
  · exact (deliver_moves_timers he :)

/-! ### The invariant -/

/-- A register holds the low 32 bits of `v` exactly when it reads as `trunc_32(v)`. -/
theorem toNat_eq_trunc_iff {w : Word} {v : Int} : (w.toNat : Int) = trunc 32 v ↔ w = storeUnsigned v := by
  rw [Int.natCast_inj, ← storeUnsigned_toNat, BitVec.toNat_inj]

/-- A register holds `v`, where `v` fits it, exactly when it reads as `v`. -/
theorem toNat_eq_iff {w : Word} {v : Int} (h0 : 0 ≤ v) (h1 : v < 4294967296) :
    (w.toNat : Int) = v ↔ w = storeUnsigned v := by
  rw [← toNat_eq_trunc_iff, trunc_of_range h0 h1]

theorem toNat_eq_motorPeriod {w : Word} :
    (w.toNat : Int) = Config.actual.motorPeriod ↔ w = motorConstants.period := by
  obtain ⟨hpos, hlt⟩ := motorPeriod_range Config.actual
  exact toNat_eq_iff (by omega) hlt

theorem toNat_eq_servoPeriod {w : Word} :
    (w.toNat : Int) = Config.actual.servoPeriod ↔ w = servoConstants.period := by
  obtain ⟨hpos, hlt⟩ := servoPeriod_range Config.actual
  exact toNat_eq_iff (by omega) hlt

/-- R29 for timer M: the formula, written out, is the compare value. -/
theorem toNat_eq_motor_formula {w cmd : Word} :
    (w.toNat : Int) = trunc 32 (tdiv (Config.actual.ticksPerUs * cmd.toInt) 2) ↔ w = motorConstants.ticks cmd :=
  toNat_eq_trunc_iff

/-- A commanded angle lies below 180, so wrapping it changes nothing. -/
theorem servoTicks_of_fin (c : Config) (cmd : Fin 180) : servoTicks c cmd.val = cmd.val + c.servoOffsetTicks := by
  have := cmd.isLt
  unfold servoTicks emod
  omega

/-- R29 for timer S. -/
theorem toNat_eq_servo_formula {w : Word} {cmd : Fin 180} :
    (w.toNat : Int) = trunc 32 (cmd.val + Config.actual.servoOffsetTicks) ↔ w = servoConstants.ticks cmd := by
  rw [toNat_eq_trunc_iff, ← servoTicks_of_fin]
  rfl

theorem machineInv_iff {s : State} :
    MachineInv s ↔ s.motor.Lawful motorConstants ∧ s.servo.Lawful servoConstants := by
  simp only [MachineInv, MotorCoherent, ServoCoherent, TimersConstant, toNat_eq_motor_formula, toNat_eq_servo_formula,
    toNat_eq_motorPeriod, toNat_eq_servoPeriod]
  constructor
  · rintro ⟨hmotor, hservo, hconstM, hconstS, hcenM, hcenS⟩
    exact ⟨⟨hmotor, hconstM, hcenM⟩, ⟨hservo, hconstS, hcenS⟩⟩
  · rintro ⟨⟨hmotor, hconstM, hcenM⟩, ⟨hservo, hconstS, hcenS⟩⟩
    exact ⟨hmotor, hservo, hconstM, hconstS, hcenM, hcenS⟩

/-- Settles O46: each timer makes one of its four moves, and every move keeps the timer's law. -/
theorem everyStepKeepsTheInvariant : Obligations.EveryStepKeepsTheInvariant := by
  intro s t hinv hstep
  obtain ⟨hmotor, hservo⟩ := machineInv_iff.mp hinv
  obtain ⟨hmoveM, hmoveS⟩ := step_moves_timers hstep
  exact machineInv_iff.mpr ⟨hmoveM.keeps_lawful hmotor, hmoveS.keeps_lawful hservo⟩

/-- Settles O47: after reset no timer is initialised and neither counter runs. -/
theorem resetMeetsTheInvariant : Obligations.ResetMeetsTheInvariant := by
  refine machineInv_iff.mpr ⟨⟨?_, ?_, by decide⟩, ⟨?_, ?_, by decide⟩⟩
  all_goals exact fun hinit => Bool.noConfusion hinit

/-- Settles O15, by the definition of the state after reset (R37, R190). -/
theorem resetFlagsAndEnables : Obligations.ResetFlagsAndEnables := ⟨rfl, rfl, rfl, rfl, rfl, rfl⟩

/-! ### QDEC -/

/-- QDEC changes under QINIT and QEDGE alone, and neither clears its flag (R21 to R23). -/
theorem deliver_qdec_cases {e : Event} {s t : State} (h : deliver e s = .next t) :
    t.qdec = s.qdec ∨ (e.instr? = some .qinit ∧ t.qdec = Qdec.initialised) ∨
      ∃ id raw, e.instr? = some (.qedge id raw) ∧ ∃ k : Fin 2, t.qdec = s.qdec.edge Config.actual k raw := by
  obtain ⟨p, w, i, rfl, hw, hexec⟩ | ⟨tm, rfl, rfl⟩ := deliver_next_cases h
  · have hinstr : (Event.command p w).instr? = some i := by simp [Event.instr?, hw, Except.toOption]
    obtain ⟨rfl, -, rfl⟩ | ⟨id, raw, rfl, -, -, k, -, rfl⟩ | hother := exec_next_cases hexec
    · exact .inr (.inl ⟨hinstr, rfl⟩)
    · exact .inr (.inr ⟨id, raw, hinstr, k, rfl⟩)
    · obtain ⟨_, -, -, -, _, -, rfl⟩ | ⟨-, -, rfl⟩ | ⟨-, -, rfl⟩ | ⟨_, _, -, -, -, _, -, rfl⟩ |
        ⟨_, _, -, -, -, _, -, rfl⟩ := hother
      all_goals exact .inl rfl
  · exact .inl (decoderView_eq.mp (decoderView_boundary tm s)).left

/-- Settles O29: the cases in which QDEC differs afterwards are those of QINIT and QEDGE. -/
theorem onlyQinitAndQedgeWriteTheDecoder : Obligations.OnlyQinitAndQedgeWriteTheDecoder := by
  intro e s t h hne
  obtain heq | ⟨hqinit, -⟩ | ⟨id, raw, hqedge, -⟩ := deliver_qdec_cases h
  · exact absurd heq hne
  · exact .inl hqinit
  · exact .inr ⟨id, raw, hqedge⟩

theorem deliver_keeps_qdec_init {e : Event} {s t : State} (h : deliver e s = .next t) (hinit : s.qdec.init = true) :
    t.qdec.init = true := by
  obtain heq | ⟨-, heq⟩ | ⟨_, _, -, _, heq⟩ := deliver_qdec_cases h <;> rw [heq]
  · exact hinit
  · rfl
  · exact hinit

theorem step_keeps_qdec_init {s t : State} (h : step s = .next t) (hinit : s.qdec.init = true) :
    t.qdec.init = true := by
  obtain rfl | ⟨e, rest, -, he⟩ := step_next_cases h
  · exact hinit
  · exact deliver_keeps_qdec_init he hinit

/-- Settles O45: no move of a timer clears its flag or its enable, and nothing clears the flag of QDEC. -/
theorem flagsAndEnablesAreNeverCleared : Obligations.FlagsAndEnablesAreNeverCleared := by
  intro s t h
  obtain ⟨hmotor, hservo⟩ := step_moves_timers h
  exact ⟨step_keeps_qdec_init h, hmotor.keeps_init, hservo.keeps_init, hmotor.keeps_cen, hservo.keeps_cen⟩

end Sys2Proof.Machine
end

section
/-!
PROOFS. What becomes of the compare values: which events reach the outputs (R71), what a boundary makes active (R131,
R132), the independence of the two timers (R31) and fairness (R131).
-/

namespace Sys2Proof.Machine

/-! ### Active values and outputs -/

/-- Settles O39: each of the seven next states keeps both vectors of active values. -/
theorem commandsLeaveTheActiveValues : Obligations.CommandsLeaveTheActiveValues := by
  intro i s t h
  obtain ⟨-, -, rfl⟩ | ⟨_, _, -, -, -, _, -, rfl⟩ | ⟨_, -, -, -, _, -, rfl⟩ | ⟨-, -, rfl⟩ | ⟨-, -, rfl⟩ |
    ⟨_, _, -, -, -, _, -, rfl⟩ | ⟨_, _, -, -, -, _, -, rfl⟩ := exec_next_cases h
  all_goals exact ⟨rfl, rfl⟩

/-- The outputs are a function of the timers (R71). -/
theorem pins_of_pwmView {s t : State} (h : pwmView t = pwmView s) : t.pins = s.pins := by
  obtain ⟨hmotor, hservo⟩ := pwmView_eq.mp h
  simp only [State.pins, hmotor, hservo]

/-- A boundary writes active values only, and those are no outputs. -/
theorem boundary_pins (tm : TimerId) (s : State) : (boundary tm s).pins = s.pins := by
  obtain ⟨-, h⟩ | ⟨-, -, h⟩ | ⟨-, -, h⟩ := boundary_cases tm s <;> rw [h] <;> rfl

/-- A command that is taken is one of QDEC's or one of PWMX's. -/
theorem Event.isQdec_of_not_isPwm {p : Port} {w : CommandWord} {i : Instr} (hw : decode w = .ok i)
    (h : (Event.command p w).isPwm = false) : (Event.command p w).isQdec = true := by
  simp_all [Event.isPwm, Event.isQdec, Event.instr?, Except.toOption]

/-- Settles O40: a QDEC command leaves the timers as they were, and a boundary leaves the outputs as they were. -/
theorem onlyPwmCommandsDriveTheOutputs : Obligations.OnlyPwmCommandsDriveTheOutputs := by
  intro e s t h hpwm
  obtain ⟨p, w, i, rfl, hw, -⟩ | ⟨tm, rfl, rfl⟩ := deliver_next_cases h
  · exact pins_of_pwmView ((actsOn_of_isQdec (Event.isQdec_of_not_isPwm hw hpwm)).keeps_rest h)
  · exact boundary_pins tm s

/-! ### Boundaries of a running timer -/

theorem boundary_motor_of_cen {s : State} (h : s.motor.cen = 1) :
    boundary .motor s = { s with motor := s.motor.latch } :=
  if_pos (decide_eq_true h)

theorem boundary_servo_of_cen {s : State} (h : s.servo.cen = 1) :
    boundary .servo s = { s with servo := s.servo.latch } :=
  if_pos (decide_eq_true h)

/-- R132 (d). -/
theorem boundary_idempotent (tm : TimerId) (s : State) : boundary tm (boundary tm s) = boundary tm s := by
  obtain ⟨-, h⟩ | ⟨rfl, hcen, h⟩ | ⟨rfl, hcen, h⟩ := boundary_cases tm s
  · rw [h, h]
  · rw [h]
    exact boundary_motor_of_cen hcen
  · rw [h]
    exact boundary_servo_of_cen hcen

/-- Settles O41: the step takes the boundary, and the boundary of a running timer latches. -/
theorem boundaryLatchesAllChannels : Obligations.BoundaryLatchesAllChannels := by
  intro s rest
  refine ⟨fun hin hcen => ?_, fun hin hcen => ?_, fun tm => boundary_idempotent tm s⟩
  · rw [step_event hin]
    exact congrArg Host.Outcome.next (boundary_motor_of_cen hcen)
  · rw [step_event hin]
    exact congrArg Host.Outcome.next (boundary_servo_of_cen hcen)

/-- Two MDUTYs to one channel leave the compare value of the second (R127 e). -/
theorem mduty_twice_cmp (id : Fin 4) (p q : Int) {s : State} {m : Fin 2} (hport : s.port = .host)
    (hinit : s.motor.init = true) (hm : m.val = id.val) :
    ∃ t, andThen (exec (.mduty id p) s) (exec (.mduty id q)) = .next t ∧ t.motor.cen = s.motor.cen ∧
      t.motor.cmp[m] = motorCompare Config.actual (storeSigned q) := by
  rw [exec_mduty, mdutyUnder_eq _ p hport hinit hm, andThen_next, exec_mduty]
  exact ⟨_, mdutyUnder_eq _ q hport hinit hm, rfl, set_same _ m _⟩

/-- Two SMOVEs to one channel leave the compare value of the second (R130 d). -/
theorem smove_twice_cmp (id : Fin 4) (p q : Int) {s : State} {ch : Fin 3} (hport : s.port = .host)
    (hinit : s.servo.init = true) (hch : ch.val = id.val) :
    ∃ t, andThen (exec (.smove id p) s) (exec (.smove id q)) = .next t ∧ t.servo.cen = s.servo.cen ∧
      t.servo.cmp[ch] = servoCompare Config.actual (wrapDegree q) := by
  rw [exec_smove, smoveUnder_eq _ p hport hinit hch, andThen_next, exec_smove]
  exact ⟨_, smoveUnder_eq _ q hport hinit hch, rfl, set_same _ ch _⟩

/-- Settles O43: the second write decides the compare register, and the boundary makes the register active. -/
theorem onlyTheLastWriteBecomesActive : Obligations.OnlyTheLastWriteBecomesActive := by
  constructor
  · intro id p q s m hq hport hinit hcen hm
    obtain ⟨t, ht, hcent, hcmp⟩ := mduty_twice_cmp id p q hport hinit hm
    refine ⟨t, ht, ?_⟩
    rw [boundary_motor_of_cen (hcent.trans hcen), Pwm.latch_cmpAct, hcmp, motorCompare_toNat _ hq]
  · intro id p q s ch _ hport hinit hcen hch
    obtain ⟨t, ht, hcent, hcmp⟩ := smove_twice_cmp id p q hport hinit hch
    refine ⟨t, ht, ?_⟩
    rw [boundary_servo_of_cen (hcent.trans hcen), Pwm.latch_cmpAct, hcmp, servoCompare, storeUnsigned_toNat,
      servoTicks_wrapDegree]

/-! ### The two timers -/

/-- All but timer M. -/
def exceptMotorView (s : State) : Qdec × Pwm 3 (Fin 180) × List Word := (s.qdec, s.servo, s.responses)

theorem exceptMotorView_eq {s t : State} :
    exceptMotorView s = exceptMotorView t ↔ s.qdec = t.qdec ∧ s.servo = t.servo ∧ s.responses = t.responses := by
  simp only [exceptMotorView, Prod.mk_inj]

theorem sameArch_of_motor {s t : State} (hm : s.motor = t.motor) (hr : exceptMotorView s = exceptMotorView t) :
    SameArch s t := by
  obtain ⟨hqdec, hservo, hresponses⟩ := exceptMotorView_eq.mp hr
  exact ⟨hqdec, hm, hservo, hresponses⟩

theorem Event.timer?_eq_some {e : Event} {tm : TimerId} (h : e.timer? = some tm) :
    (∃ p w i, e = .command p w ∧ decode w = .ok i ∧ Instr.timer? i = some tm) ∨ e = .boundary tm := by
  cases e with
  | command p w =>
    obtain ⟨i, hw, hi⟩ := Option.bind_eq_some_iff.mp h
    obtain ⟨_, _, heq, hdec⟩ := Event.instr?_eq_some (e := .command p w) hw
    cases heq
    exact .inl ⟨p, w, i, rfl, hdec, hi⟩
  | boundary t =>
    cases h
    exact .inr rfl

/-- MINIT and MDUTY read and write timer M only. -/
theorem exec_motor_local {i : Instr} (hi : Instr.timer? i = some .motor) {s u s' : State} (h : exec i s = .next u)
    (hport : s'.port = s.port) (hview : s'.motor = s.motor) :
    ∃ u', exec i s' = .next u' ∧ u'.motor = u.motor ∧ exceptMotorView u' = exceptMotorView s' := by
  cases i with
  | minit =>
    obtain ⟨hp, rfl⟩ := minitUnder_next.mp h
    exact ⟨_, minitUnder_next.mpr ⟨hport.trans hp, rfl⟩, by simp [hview], rfl⟩
  | mduty id percent =>
    obtain ⟨hp, hm, k, hk, rfl⟩ := mdutyUnder_next.mp h
    exact ⟨_, mdutyUnder_eq _ percent (hport.trans hp) (hview ▸ hm) hk, by simp [hview], rfl⟩
  | qinit | qedge | qread | sinit | smove => cases hi

/-- SINIT and SMOVE read and write timer S only. -/
theorem exec_servo_local {i : Instr} (hi : Instr.timer? i = some .servo) {s u s' : State} (h : exec i s = .next u)
    (hport : s'.port = s.port) (hview : exceptMotorView s' = exceptMotorView s) :
    ∃ u', exec i s' = .next u' ∧ exceptMotorView u' = exceptMotorView u ∧ u'.motor = s'.motor := by
  obtain ⟨hqdec, hservo, hresponses⟩ := exceptMotorView_eq.mp hview
  cases i with
  | sinit =>
    obtain ⟨hp, rfl⟩ := sinitUnder_next.mp h
    exact ⟨_, sinitUnder_next.mpr ⟨hport.trans hp, rfl⟩, by simp [exceptMotorView, hqdec, hservo, hresponses], rfl⟩
  | smove id degree =>
    obtain ⟨hp, hs, k, hk, rfl⟩ := smoveUnder_next.mp h
    exact ⟨_, smoveUnder_eq _ degree (hport.trans hp) (hservo ▸ hs) hk,
      by simp [exceptMotorView, hqdec, hservo, hresponses], rfl⟩
  | qinit | qedge | qread | minit | mduty => cases hi

/-! What each boundary leaves in each part of the state. -/

theorem boundary_motor_motor (s : State) :
    (boundary .motor s).motor = if s.motor.cen = 1 then s.motor.latch else s.motor :=
  congrArg Prod.fst (pwmView_boundary_motor s)

theorem boundary_motor_servo (s : State) : (boundary .motor s).servo = s.servo :=
  congrArg Prod.snd (pwmView_boundary_motor s)

theorem boundary_servo_motor (s : State) : (boundary .servo s).motor = s.motor :=
  congrArg Prod.fst (pwmView_boundary_servo s)

theorem boundary_servo_servo (s : State) :
    (boundary .servo s).servo = if s.servo.cen = 1 then s.servo.latch else s.servo :=
  congrArg Prod.snd (pwmView_boundary_servo s)

theorem boundary_qdec (tm : TimerId) (s : State) : (boundary tm s).qdec = s.qdec :=
  (decoderView_eq.mp (decoderView_boundary tm s)).left

theorem boundary_responses (tm : TimerId) (s : State) : (boundary tm s).responses = s.responses :=
  (decoderView_eq.mp (decoderView_boundary tm s)).right

theorem actsOn_motor {e : Event} (he : e.timer? = some .motor) : e.ActsOn State.motor exceptMotorView := by
  intro s u s' h hview
  obtain ⟨p, w, i, rfl, hw, hi⟩ | rfl := Event.timer?_eq_some he
  · rw [deliver_command _ hw] at h ⊢
    exact exec_motor_local hi h rfl hview
  · cases h
    exact ⟨_, rfl, by rw [boundary_motor_motor, boundary_motor_motor, hview],
      exceptMotorView_eq.mpr ⟨boundary_qdec _ _, boundary_motor_servo _, boundary_responses _ _⟩⟩

theorem actsOn_exceptMotor {e : Event} (he : e.timer? = some .servo) : e.ActsOn exceptMotorView State.motor := by
  intro s u s' h hview
  obtain ⟨p, w, i, rfl, hw, hi⟩ | rfl := Event.timer?_eq_some he
  · rw [deliver_command _ hw] at h ⊢
    exact exec_servo_local hi h rfl hview
  · cases h
    obtain ⟨hqdec, hservo, hresponses⟩ := exceptMotorView_eq.mp hview
    refine ⟨_, rfl, exceptMotorView_eq.mpr ⟨?_, ?_, ?_⟩, boundary_servo_motor _⟩
    · rw [boundary_qdec, boundary_qdec, hqdec]
    · rw [boundary_servo_servo, boundary_servo_servo, hservo]
    · rw [boundary_responses, boundary_responses, hresponses]

/-- Settles O49: an event of timer M acts on timer M, an event of timer S on the rest of the state, and events that act on
complementary views commute. -/
theorem timersAreIndependent : Obligations.TimersAreIndependent := by
  intro e f s t he hf
  have hmotor := actsOn_motor he
  have hservo := actsOn_exceptMotor hf
  constructor
  · intro h
    obtain ⟨t', ht', hm, hr⟩ := hmotor.commute hservo h
    exact ⟨t', ht', sameArch_of_motor hm hr⟩
  · intro h
    obtain ⟨t', ht', hr, hm⟩ := hservo.commute hmotor h
    exact ⟨t', ht', sameArch_of_motor hm hr⟩

/-! ### Fairness -/

theorem boundaryEnabled_motor {s : State} : boundaryEnabled .motor s = true ↔ s.motor.cen = 1 := decide_eq_true_iff

theorem boundaryEnabled_servo {s : State} : boundaryEnabled .servo s = true ↔ s.servo.cen = 1 := decide_eq_true_iff

/-- No event stops a timer (R33). -/
theorem deliver_keeps_enabled {tm : TimerId} {e : Event} {s t : State} (h : deliver e s = .next t)
    (hen : boundaryEnabled tm s = true) : boundaryEnabled tm t = true := by
  obtain ⟨hmotor, hservo⟩ := deliver_moves_timers h
  cases tm with
  | motor => exact boundaryEnabled_motor.mpr (hmotor.keeps_cen (boundaryEnabled_motor.mp hen))
  | servo => exact boundaryEnabled_servo.mpr (hservo.keeps_cen (boundaryEnabled_servo.mp hen))

/-- One event more of an endless stream. -/
theorem along_succ (env : Nat → Event) (s : State) (n : Nat) :
    along env s (n + 1) = andThen (along env s n) (deliver (env n)) := by
  have hone : play [env n] = deliver (env n) := by
    funext u
    rw [play_cons]
    cases deliver (env n) u <;> rfl
  rw [along, List.range_succ, List.map_append, play_append, List.map_singleton, hone, along]

theorem along_succ_next {env : Nat → Event} {s t : State} {n : Nat} :
    along env s (n + 1) = .next t ↔ ∃ u, along env s n = .next u ∧ deliver (env n) u = .next t := by
  rw [along_succ, andThen_eq_next]

/-- In a stream that never faults a running timer keeps running. -/
theorem along_keeps_enabled {tm : TimerId} {env : Nat → Event} {s u : State} {n m : Nat} (hnm : n ≤ m)
    (hu : along env s n = .next u) (hen : boundaryEnabled tm u = true) {v : State} (hv : along env s m = .next v) :
    boundaryEnabled tm v = true := by
  induction m, hnm using Nat.le_induction generalizing v with
  | base =>
    cases hu.symm.trans hv
    exact hen
  | succ m _ ih =>
    obtain ⟨v₀, hv₀, hd⟩ := along_succ_next.mp hv
    exact deliver_keeps_enabled hd (ih hv₀)

/-- After the boundary of a running timer its active values are its compare registers. -/
theorem boundary_active_eq_compare {tm : TimerId} {s : State} (hen : boundaryEnabled tm s = true) :
    (tm = .motor → (boundary tm s).motor.cmpAct = (boundary tm s).motor.cmp) ∧
      (tm = .servo → (boundary tm s).servo.cmpAct = (boundary tm s).servo.cmp) := by
  constructor
  · rintro rfl
    rw [boundary_motor_of_cen (boundaryEnabled_motor.mp hen)]
    rfl
  · rintro rfl
    rw [boundary_servo_of_cen (boundaryEnabled_servo.mp hen)]
    rfl

/-- Settles O51: the timer still runs at the boundary that fairness gives, so that boundary latches. -/
theorem fairTimersTakeTheirCompareValues : Obligations.FairTimersTakeTheirCompareValues := by
  intro tm env s hfair htotal n u hu hen
  obtain ⟨m, hnm, hm⟩ := hfair n (by rw [hu]; exact hen)
  obtain ⟨v, hv⟩ := htotal m
  have henv : boundaryEnabled tm v = true := along_keeps_enabled hnm hu hen hv
  refine ⟨m + 1, boundary tm v, by omega, along_succ_next.mpr ⟨v, hv, ?_⟩, boundary_active_eq_compare henv⟩
  rw [hm]
  rfl

end Sys2Proof.Machine
end

section
/-!
PROOFS. Sequences of commands whose outcome is one closed formula: the edges of one encoder (R92, R95, R97, R101) and the
initialisations in any order (R38, R195).
-/

namespace Sys2Proof.Machine

/-! ### A sequence of edges of one encoder -/

/-- QDEC after edges of encoder `i` with these samples, in order (R97). -/
def Qdec.edges (c : Config) (i : Fin 2) (q : Qdec) (raws : List Phase) : Qdec :=
  raws.foldl (fun q raw => q.edge c i raw) q

/-- The same edges as commands. -/
def qedgesUnder (c : Config) (id : Fin 4) (raws : List Phase) (s : State) : Result :=
  raws.foldl (fun r raw => andThen r (qedgeUnder c id raw)) (.next s)

theorem qedgesUnder_eq (c : Config) {id : Fin 4} (raws : List Phase) {s : State} {i : Fin 2} (hp : s.port = .edge)
    (hq : s.qdec.init = true) (hi : i.val = id.val) :
    qedgesUnder c id raws s = .next { s with qdec := s.qdec.edges c i raws } := by
  induction raws generalizing s with
  | nil => rfl
  | cons raw raws ih =>
    rw [qedgesUnder, List.foldl_cons, andThen_next, qedgeUnder_eq c raw hp hq hi]
    exact ih (s := { s with qdec := s.qdec.edge c i raw }) hp hq

/-- Storing wraps, so a summand may be wrapped before. -/
theorem storeSigned_wrap_add (a b : Int) : storeSigned (wrap 32 a + b) = storeSigned (a + b) := by
  rw [← storeSigned_wrap, wrap_add, storeSigned_wrap]

/-- R97 from any start: the phase is the last sample, the accumulator takes the sum of the table entries with `wrap_32`,
and the other encoder is as it was. -/
theorem Qdec.edges_eq (c : Config) (i : Fin 2) (q : Qdec) (raws : List Phase) :
    q.edges c i raws =
      { q with
        phase := q.phase.set i (lastSample q.phase[i] raws)
        position := q.position.set i (storeSigned ((q.position[i]).toInt + deltaSum c q.phase[i] raws)) } := by
  induction raws generalizing q with
  | nil => simp [Qdec.edges, lastSample, deltaSum, Fin.getElem_fin]
  | cons raw raws ih =>
    rw [Qdec.edges, List.foldl_cons]
    refine (ih (q.edge c i raw)).trans ?_
    simp only [Qdec.edge, set_same, storeSigned_toInt, storeSigned_wrap_add, Vector.set_set,
      lastSample, deltaSum, add_assoc]

/-- Edges that add up to nothing and end in the phase they began with leave QDEC as it was. -/
theorem Qdec.edges_eq_self {c : Config} {i : Fin 2} {q : Qdec} {raws : List Phase}
    (hlast : lastSample q.phase[i] raws = q.phase[i]) (hsum : deltaSum c q.phase[i] raws = 0) :
    q.edges c i raws = q := by
  rw [Qdec.edges_eq, hlast, hsum, add_zero, storeSigned_self, set_unchanged, set_unchanged]

/-- An edge whose table entry is 0 leaves every position. -/
theorem Qdec.edge_position_of_delta_zero {c : Config} {i : Fin 2} {q : Qdec} {raw : Phase}
    (h : c.delta q.phase[i] raw = 0) : (q.edge c i raw).position = q.position := by
  rw [Qdec.edge_position, h, add_zero, storeSigned_self, set_unchanged]

/-- Settles O21: the table entry of a repeat and of a double step is 0, and the sample of a repeat is the phase. -/
theorem repeatsAndDoubleStepsDoNotCount : Obligations.RepeatsAndDoubleStepsDoNotCount := by
  intro c id s i htier hp hq hi
  obtain ⟨hrepeat, hdouble⟩ := htier s.qdec.phase[i]
  constructor
  · have hsame : s.qdec.edges c i [s.qdec.phase[i]] = s.qdec :=
      Qdec.edges_eq_self rfl (by rw [deltaSum, hrepeat]; rfl)
    exact (qedgesUnder_eq c [s.qdec.phase[i]] hp hq hi).trans (by rw [hsame])
  · exact ⟨_, qedgeUnder_eq c _ hp hq hi, Qdec.edge_position_of_delta_zero hdouble, set_same _ i _⟩

/-- Settles O22: the four table entries of the forward cycle add up to 4, and its last sample is 0. -/
theorem forwardCycleCountsFour : Obligations.ForwardCycleCountsFour := by
  intro c id s i htier hp hq hi hphase
  obtain ⟨h01, h13, h32, h20⟩ := htier
  have hsum : deltaSum c s.qdec.phase[i] [1, 3, 2, 0] = 4 := by
    simp only [deltaSum, hphase, h01, h13, h32, h20]
    rfl
  have hlast : lastSample s.qdec.phase[i] [1, 3, 2, 0] = s.qdec.phase[i] := hphase.symm
  refine ⟨_, qedgesUnder_eq c [1, 3, 2, 0] hp hq hi, ?_, ?_⟩
  · rw [Qdec.edges_eq, hsum, set_same, storeSigned_toInt]
  · rw [Qdec.edges_eq, hlast, set_unchanged]

/-! ### The default table -/

theorem delta_congr {c d : Config} (h : c.tt = d.tt) : c.delta = d.delta := by
  funext p n
  simp only [Config.delta, h]

theorem cfgEx_delta_antisymm : ∀ a b : Phase, Config.cfgEx.delta a b = -Config.cfgEx.delta b a := by decide

/-- Settles O23: TT_DEFAULT is antisymmetric, so a step and the step back add up to nothing. -/
theorem defaultTableStepsAreReversible : Obligations.DefaultTableStepsAreReversible := by
  intro c htt
  have hdelta : c.delta = Config.cfgEx.delta := delta_congr htt
  have hanti : ∀ a b : Phase, c.delta a b = -c.delta b a := hdelta ▸ cfgEx_delta_antisymm
  refine ⟨?_, ?_, hanti, ?_⟩
  · unfold Config.Tier2
    rw [hdelta]
    decide
  · unfold Config.Tier3
    rw [hdelta]
    decide
  · intro id raw s i hp hq hi
    have hback : s.qdec.edges c i [raw, s.qdec.phase[i]] = s.qdec :=
      Qdec.edges_eq_self rfl (by rw [deltaSum, deltaSum, deltaSum, hanti]; omega)
    exact (qedgesUnder_eq c [raw, s.qdec.phase[i]] hp hq hi).trans (by rw [hback])

/-! ### Start-up -/

/-- Timer M after MINIT (R121). -/
def motorInitialised (p : Pwm 2 Word) : Pwm 2 Word :=
  p.initialise motorConstants.ticks motorConstants.period motorConstants.mctrl motorConstants.emctrl
    motorConstants.defaults

/-- Timer S after SINIT (R123). -/
def servoInitialised (p : Pwm 3 (Fin 180)) : Pwm 3 (Fin 180) :=
  p.initialise servoConstants.ticks servoConstants.period servoConstants.mctrl servoConstants.emctrl
    servoConstants.defaults

theorem deliver_qinit (s : State) :
    deliver (ownPortEvent .qinit) s = .next { s with port := .host, qdec := Qdec.initialised } :=
  deliver_command (i := .qinit) s (by decide)

theorem deliver_minit (s : State) :
    deliver (ownPortEvent .minit) s = .next { s with port := .host, motor := motorInitialised s.motor } :=
  deliver_command (i := .minit) s (by decide)

theorem deliver_sinit (s : State) :
    deliver (ownPortEvent .sinit) s = .next { s with port := .host, servo := servoInitialised s.servo } :=
  deliver_command (i := .sinit) s (by decide)

/-- R195: each initialisation writes its own unit alone, so all six orders leave one state. -/
theorem play_start_up {w : List Event}
    (hw : w.Perm [ownPortEvent .qinit, ownPortEvent .minit, ownPortEvent .sinit]) (s : State) :
    play w s =
      .next
        { s with
          port := .host, qdec := Qdec.initialised, motor := motorInitialised s.motor
          servo := servoInitialised s.servo } := by
  have hmem := List.mem_permutations'.mpr hw
  simp only [List.permutations', List.permutations'Aux, List.flatMap_cons, List.flatMap_nil, List.map_cons,
    List.map_nil, List.append_nil, List.cons_append, List.nil_append, List.mem_cons, List.not_mem_nil, or_false]
    at hmem
  obtain rfl | rfl | rfl | rfl | rfl | rfl := hmem
  all_goals simp only [play_cons, deliver_qinit, deliver_minit, deliver_sinit, andThen_next, play_nil]

theorem inArgRange_motorDefault (c : Config) (m : Fin 2) : inArgRange (c.motorDefaultPercent m) = true := by
  have := (c.motorDefault[m]).isLt
  rw [inArgRange, Bool.and_eq_true, decide_eq_true_eq, decide_eq_true_eq, Config.motorDefaultPercent]
  omega

theorem motorInitialised_cmd (p : Pwm 2 Word) (m : Fin 2) :
    ((motorInitialised p).cmd[m]).toInt = Config.actual.motorDefaultPercent m := by
  rw [motorInitialised, Pwm.initialise_cmd, Fin.getElem_fin, Vector.getElem_ofFn, ← wrap_of_inArgRange
    (inArgRange_motorDefault _ m)]
  exact storeSigned_toInt _

theorem servoInitialised_cmd (p : Pwm 3 (Fin 180)) (ch : Fin 3) :
    (((servoInitialised p).cmd[ch]).val : Int) = Config.actual.servoDefaultDegree ch := by
  rw [servoInitialised, Pwm.initialise_cmd, Fin.getElem_fin, Vector.getElem_ofFn]
  rfl

/-- Settles O17: all orders leave one state; an initialised timer obeys its law, which gives the constants and the compare
values of the defaults. -/
theorem startUpInAnyOrder : Obligations.StartUpInAnyOrder := by
  intro s w hw
  have hmotor : (motorInitialised s.motor).Lawful motorConstants := s.motor.initialise_lawful
  have hservo : (servoInitialised s.servo).Lawful servoConstants := s.servo.initialise_lawful
  refine ⟨_, play_start_up hw s, rfl, rfl, rfl, rfl, rfl, toNat_eq_motorPeriod.mpr rfl, rfl, rfl, fun m => ?_, rfl, rfl,
    rfl, toNat_eq_servoPeriod.mpr rfl, rfl, rfl, fun ch => ?_, rfl, rfl⟩
  · refine ⟨motorInitialised_cmd _ m, ?_⟩
    rw [← motorInitialised_cmd s.motor m]
    exact toNat_eq_motor_formula.mpr (hmotor.cmp rfl m)
  · refine ⟨servoInitialised_cmd _ ch, ?_⟩
    rw [← servoInitialised_cmd s.servo ch]
    exact toNat_eq_servo_formula.mpr (hservo.cmp rfl ch)

end Sys2Proof.Machine
end

section
/-!
PROOFS. The memory family: what a step does to the outstanding events and the port (R58, R70), and why the order in
which the agents' events are interleaved does not reach QDEC (R58, R97).

A completing run counts edges of one agent only, because QEDGE is taken on the EDGE port alone (R77); edges of different
encoders commute (R99), so QDEC is a function of each encoder's own samples.
-/

namespace Sys2Proof.Machine

/-! ### The interface fields -/

/-- No command adds or drops an event, or moves to another port. -/
theorem exec_keeps_interface {i : Instr} {s t : State} (h : exec i s = .next t) :
    t.inputs = s.inputs ∧ t.port = s.port := by
  obtain ⟨-, -, rfl⟩ | ⟨_, _, -, -, -, _, -, rfl⟩ | ⟨_, -, -, -, _, -, rfl⟩ | ⟨-, -, rfl⟩ | ⟨-, -, rfl⟩ |
    ⟨_, _, -, -, -, _, -, rfl⟩ | ⟨_, _, -, -, -, _, -, rfl⟩ := exec_next_cases h
  all_goals exact ⟨rfl, rfl⟩

theorem boundary_inputs (tm : TimerId) (s : State) : (boundary tm s).inputs = s.inputs := by
  obtain ⟨-, h⟩ | ⟨-, -, h⟩ | ⟨-, -, h⟩ := boundary_cases tm s <;> rw [h]

theorem deliver_inputs {e : Event} {s t : State} (h : deliver e s = .next t) : t.inputs = s.inputs := by
  obtain ⟨p, w, i, -, -, hexec⟩ | ⟨tm, -, rfl⟩ := deliver_next_cases h
  · exact (exec_keeps_interface hexec).left
  · exact boundary_inputs tm s

theorem deliver_command_port {p : Port} {w : CommandWord} {s t : State}
    (h : deliver (.command p w) s = .next t) : t.port = p := by
  obtain ⟨_, _, i, heq, -, hexec⟩ | ⟨tm, heq, -⟩ := deliver_next_cases h <;> cases heq
  exact (exec_keeps_interface hexec).right

/-- Settles O10: the step removes the first event; taking it leaves the others and sets the port to its own. -/
theorem stepTakesEventsInOrder : Obligations.StepTakesEventsInOrder := by
  intro s t e rest hin hstep
  rw [step_event hin] at hstep
  refine ⟨deliver_inputs hstep, ?_⟩
  rintro p w rfl
  exact deliver_command_port hstep

/-! ### Edges of different encoders -/

/-- R99: edges of different encoders commute under every table. -/
theorem Qdec.edge_comm (c : Config) {i j : Fin 2} (hij : i ≠ j) (q : Qdec) (a b : Phase) :
    (q.edge c i a).edge c j b = (q.edge c j b).edge c i a := by
  have hval : i.val ≠ j.val := fun h => hij (Fin.ext h)
  simp only [Qdec.edge, set_other _ _ _ _ hij, set_other _ _ _ _ hij.symm]
  rw [Vector.set_comm _ _ hval, Vector.set_comm _ _ hval]

theorem Qdec.edges_edge_comm (c : Config) {i j : Fin 2} (hij : i ≠ j) (q : Qdec) (raws : List Phase) (b : Phase) :
    (q.edge c j b).edges c i raws = (q.edges c i raws).edge c j b := by
  induction raws generalizing q with
  | nil => rfl
  | cons a raws ih =>
    calc ((q.edge c j b).edge c i a).edges c i raws
        = ((q.edge c i a).edge c j b).edges c i raws := by rw [Qdec.edge_comm c hij]
      _ = ((q.edge c i a).edges c i raws).edge c j b := ih _

/-! ### The edges of a run -/

theorem edgesOf_cons_qedge {e : Event} {id : Fin 4} {raw : Phase} (h : e.instr? = some (.qedge id raw)) (i : Fin 2)
    (w : List Event) : edgesOf i (e :: w) = if id.val = i.val then raw :: edgesOf i w else edgesOf i w := by
  rw [edgesOf, h]

theorem edgesOf_cons_other {e : Event} (h : ∀ id raw, e.instr? ≠ some (.qedge id raw)) (i : Fin 2) (w : List Event) :
    edgesOf i (e :: w) = edgesOf i w := by
  rw [edgesOf]
  split
  · rename_i id raw heq
    exact absurd heq (h id raw)
  · rfl

theorem Event.notQinit_iff {e : Event} : e.notQinit = true ↔ e.instr? ≠ some .qinit := by
  rw [Event.notQinit, decide_eq_true_iff]

/-- An event that completes is an edge of one encoder, issued by the EDGE agent (R77), or no edge, and then only a QINIT
changes QDEC. -/
theorem deliver_edge_cases {e : Event} {s t : State} (h : deliver e s = .next t) :
    (∃ id raw, e.instr? = some (.qedge id raw) ∧ e.agent = .edge ∧
      ∃ k : Fin 2, k.val = id.val ∧ t.qdec = s.qdec.edge Config.actual k raw) ∨
    ((∀ id raw, e.instr? ≠ some (.qedge id raw)) ∧ (e.notQinit = true → t.qdec = s.qdec)) := by
  by_cases hedge : ∃ id raw, e.instr? = some (.qedge id raw)
  · obtain ⟨id, raw, hinstr⟩ := hedge
    obtain ⟨p, w, rfl, hw⟩ := Event.instr?_eq_some hinstr
    rw [deliver_command _ hw] at h
    obtain ⟨hport, -, k, hk, rfl⟩ := qedgeUnder_next.mp h
    cases hport
    exact .inl ⟨id, raw, hinstr, rfl, k, hk, rfl⟩
  · refine .inr ⟨fun id raw hinstr => hedge ⟨id, raw, hinstr⟩, fun hq => ?_⟩
    by_contra hne
    exact (onlyQinitAndQedgeWriteTheDecoder e s t h hne).elim (Event.notQinit_iff.mp hq) hedge

/-- QDEC after the edges of a list of events, each encoder's samples in their order (R97). -/
def Qdec.counted (q : Qdec) (w : List Event) : Qdec :=
  (q.edges Config.actual 0 (edgesOf 0 w)).edges Config.actual 1 (edgesOf 1 w)

theorem Qdec.counted_cons_qedge {e : Event} {id : Fin 4} {raw : Phase} (h : e.instr? = some (.qedge id raw)) {k : Fin 2}
    (hk : k.val = id.val) (q : Qdec) (w : List Event) :
    q.counted (e :: w) = (q.edge Config.actual k raw).counted w := by
  rw [Qdec.counted, edgesOf_cons_qedge h, edgesOf_cons_qedge h, ← hk, Qdec.counted]
  match k with
  | 0 => rfl
  | 1 =>
    rw [Qdec.edges_edge_comm _ (by decide)]
    rfl

/-- R97: a completing run without a QINIT leaves QDEC with its edges counted. -/
theorem play_qdec {w : List Event} {s t : State} (hq : ∀ e ∈ w, e.notQinit = true) (h : play w s = .next t) :
    t.qdec = s.qdec.counted w := by
  induction w generalizing s with
  | nil =>
    cases h
    rfl
  | cons e w ih =>
    obtain ⟨u, hu, hrest⟩ := play_cons_next.mp h
    obtain ⟨he, hw⟩ := List.forall_mem_cons.mp hq
    rw [ih hw hrest]
    obtain ⟨id, raw, hinstr, -, k, hk, hqdec⟩ | ⟨hother, hqdec⟩ := deliver_edge_cases hu
    · rw [hqdec, Qdec.counted_cons_qedge hinstr hk]
    · rw [hqdec he, Qdec.counted, Qdec.counted, edgesOf_cons_other hother, edgesOf_cons_other hother]

/-- R90, R97: after a QINIT the count starts from the initialised decoder. -/
theorem play_qinit_qdec {w : List Event} {s t : State} (hq : ∀ e ∈ w, e.notQinit = true)
    (h : play (qinitEvent :: w) s = .next t) : t.qdec = Qdec.initialised.counted w := by
  obtain ⟨u, hu, hrest⟩ := play_cons_next.mp h
  cases (deliver_qinit s).symm.trans hu
  exact play_qdec hq hrest

/-! ### Total orders of the agents' events -/

/-- In a completing run every edge was issued by the EDGE agent. -/
theorem edgesOf_filter_edge {w : List Event} {s t : State} (h : play w s = .next t) (i : Fin 2) :
    edgesOf i (w.filter fun e => decide (e.agent = .edge)) = edgesOf i w := by
  induction w generalizing s with
  | nil => rfl
  | cons e w ih =>
    obtain ⟨u, hu, hrest⟩ := play_cons_next.mp h
    obtain ⟨id, raw, hinstr, hagent, -⟩ | ⟨hother, -⟩ := deliver_edge_cases hu
    · rw [List.filter_cons, if_pos (by rw [hagent]; rfl), edgesOf_cons_qedge hinstr, edgesOf_cons_qedge hinstr,
        ih hrest]
    · rw [List.filter_cons, edgesOf_cons_other hother]
      split
      · rw [edgesOf_cons_other hother, ih hrest]
      · exact ih hrest

/-- So a completing order has the edges of the EDGE agent's own list, whatever stands between them. -/
theorem IsTotalOrder.edgesOf_eq {issued : Agent → List Event} {w : List Event} {s t : State}
    (hw : IsTotalOrder issued w) (h : play (qinitEvent :: w) s = .next t) (i : Fin 2) :
    edgesOf i w = edgesOf i (issued .edge) := by
  obtain ⟨u, -, hrest⟩ := play_cons_next.mp h
  rw [← edgesOf_filter_edge hrest i, hw .edge]

theorem IsTotalOrder.mem_iff {issued : Agent → List Event} {w : List Event} (hw : IsTotalOrder issued w) {e : Event} :
    e ∈ w ↔ e ∈ issued e.agent := by
  rw [← hw e.agent, List.mem_filter, decide_eq_true_iff]
  exact (and_iff_left rfl).symm

/-- Settles O25: QDEC is a function of each encoder's samples, and in both orders these are the EDGE agent's own. -/
theorem interleavingDoesNotChangeTheCounts : Obligations.InterleavingDoesNotChangeTheCounts := by
  intro issued w₁ w₂ s₁ s₂ t₁ t₂ hw₁ hw₂ hq₁ h₁ h₂
  have hq₂ : ∀ e ∈ w₂, e.notQinit = true := fun e he => hq₁ e (hw₁.mem_iff.mpr (hw₂.mem_iff.mp he))
  rw [play_qinit_qdec hq₁ h₁, play_qinit_qdec hq₂ h₂, Qdec.counted, Qdec.counted]
  rw [hw₁.edgesOf_eq h₁, hw₁.edgesOf_eq h₁, hw₂.edgesOf_eq h₂, hw₂.edgesOf_eq h₂]

end Sys2Proof.Machine
end

section
/-!
PROOFS. The encoding family: words and the commands they spell (R72 to R82). `Spells` says once which words decode
(R78); the decoder, the list of invalid words (R79) and the match and mask test (R75) are each tied to it.
-/

namespace Sys2Proof

/-! ### Commands and their words -/

/-- A well-formed operand is read back from its word (R73, R81). -/
theorem signedArg_formatC {op id : Nat} (ho : op < 16) (hi : id < 4) {v : Int} (hv : inArgRange v = true) :
    signedArg (formatC op id (trunc 32 v)) = v :=
  signedArg_eq hv (bits_arg ho hi (trunc_lt v))

theorem idField_formatC {op arg : Nat} (ho : op < 16) (id : Fin 4) (ha : arg < 4294967296) :
    idField (formatC op id.val arg) = id :=
  idField_eq (bits_id ho id.isLt ha)

/-- Settles O1: each word has the command's opcode, `z` and must-be-zero part 0, and its operands in their fields. -/
theorem decodeEncodeRoundTrip : Obligations.DecodeEncodeRoundTrip := by
  intro i hwf
  cases i with
  | qinit | minit | sinit => decide
  | qedge id raw =>
    obtain ⟨hop, hz⟩ := Laws.Opcode.qedge id raw
    have hraw : raw.toNat < 4 := raw.isLt
    have harg : raw.toNat < 4294967296 := by omega
    have hhigh : bits (encode (.qedge id raw)) 31 2 = 0 := by
      rw [encode, bits_arg_high (by decide) id.isLt harg]
      omega
    have hlow : bits (encode (.qedge id raw)) 1 0 = raw.toNat := by
      rw [encode, bits_arg_low (by decide) id.isLt harg]
      omega
    rw [decode_qedge hz hop hhigh, rawField_eq hlow, encode, idField_formatC (by decide) id harg]
  | qread id =>
    obtain ⟨hop, hz⟩ := Laws.Opcode.qread id
    rw [decode_qread hz hop (bits_arg (by decide) id.isLt (by decide)), encode,
      idField_formatC (by decide) id (by decide)]
  | mduty id percent =>
    obtain ⟨hop, hz⟩ := Laws.Opcode.mduty id percent
    rw [decode_mduty hz hop, encode, idField_formatC (by decide) id (trunc_lt percent),
      signedArg_formatC (by decide) id.isLt hwf]
  | smove id degree =>
    obtain ⟨hop, hz⟩ := Laws.Opcode.smove id degree
    rw [decode_smove hz hop, encode, idField_formatC (by decide) id (trunc_lt degree),
      signedArg_formatC (by decide) id.isLt hwf]

/-! ### The fields of a word -/

theorem bits_lt (w : CommandWord) (hi lo : Nat) : bits w hi lo < 2 ^ (hi - lo + 1) := Nat.mod_lt _ (by positivity)

theorem idField_val (w : CommandWord) : (idField w).val = bits w 33 32 := Nat.mod_eq_of_lt (bits_lt w 33 32)

theorem rawField_toNat (w : CommandWord) : (rawField w).toNat = bits w 1 0 := Nat.mod_eq_of_lt (bits_lt w 1 0)

theorem trunc_signedArg (w : CommandWord) : trunc 32 (signedArg w) = bits w 31 0 := trunc_sext (bits_lt w 31 0)

theorem inArgRange_signedArg (w : CommandWord) : inArgRange (signedArg w) = true := inArgRange_sext (bits_lt w 31 0)

/-- The part `w[33:0]` is `id` and `arg` (R72). -/
theorem bits_id_arg_eq_zero {w : CommandWord} : bits w 33 0 = 0 ↔ bits w 33 32 = 0 ∧ bits w 31 0 = 0 := by
  unfold bits
  omega

/-- `arg` is `arg[31:2]` and `arg[1:0]` (R72). -/
theorem bits_arg_eq (w : CommandWord) : bits w 31 0 = bits w 31 2 * 4 + bits w 1 0 := by
  unfold bits
  omega

/-- A word is its five fields. -/
theorem word_eq_iff {v w : CommandWord} :
    v = w ↔ bits v 39 36 = bits w 39 36 ∧ bits v 35 34 = bits w 35 34 ∧ bits v 33 32 = bits w 33 32 ∧
      bits v 31 2 = bits w 31 2 ∧ bits v 1 0 = bits w 1 0 := by
  constructor
  · rintro rfl
    exact ⟨rfl, rfl, rfl, rfl, rfl⟩
  · intro h
    apply BitVec.eq_of_toNat_eq
    have hv : v.toNat < 1099511627776 := v.isLt
    have hw : w.toNat < 1099511627776 := w.isLt
    unfold bits at h
    omega

/-- A word with `z = 0` is Format C of the fields it was read as. -/
theorem formatC_eq_of_fields {w : CommandWord} {op id arg : Nat} (hz : bits w 35 34 = 0) (ho : bits w 39 36 = op)
    (hi : id = bits w 33 32) (ha : arg = bits w 31 0) : formatC op id arg = w := by
  rw [← ho, hi, ha, formatC_of_bits hz]

/-- The word of a command without operands. -/
theorem formatC_eq_of_no_operands {w : CommandWord} {op : Nat} (hz : bits w 35 34 = 0) (ho : bits w 39 36 = op)
    (h0 : bits w 33 0 = 0) : formatC op 0 0 = w := by
  obtain ⟨hid, harg⟩ := bits_id_arg_eq_zero.mp h0
  exact formatC_eq_of_fields hz ho hid.symm harg.symm

/-- The sample is all of `arg` when the rest of `arg` is 0. -/
theorem rawField_eq_arg {w : CommandWord} (h0 : bits w 31 2 = 0) : (rawField w).toNat = bits w 31 0 := by
  rw [rawField_toNat, bits_arg_eq, h0]
  omega

/-- Settles O2: the fields that `decode` read, or required to be 0, are all the fields of the word. -/
theorem encodeDecodeRoundTrip : Obligations.EncodeDecodeRoundTrip := by
  intro w i h
  obtain ⟨hz, ⟨hop, h0, rfl⟩ | ⟨hop, h0, rfl⟩ | ⟨hop, h0, rfl⟩ | ⟨hop, h0, rfl⟩ | ⟨hop, h0, rfl⟩ | ⟨hop, rfl⟩ |
    ⟨hop, rfl⟩⟩ := decode_ok_cases h
  · exact ⟨formatC_eq_of_no_operands hz hop h0, rfl⟩
  · exact ⟨formatC_eq_of_fields hz hop (idField_val w) (rawField_eq_arg h0), rfl⟩
  · exact ⟨formatC_eq_of_fields hz hop (idField_val w) h0.symm, rfl⟩
  · exact ⟨formatC_eq_of_no_operands hz hop h0, rfl⟩
  · exact ⟨formatC_eq_of_no_operands hz hop h0, rfl⟩
  · exact ⟨formatC_eq_of_fields hz hop (idField_val w) (trunc_signedArg w), inArgRange_signedArg w⟩
  · exact ⟨formatC_eq_of_fields hz hop (idField_val w) (trunc_signedArg w), inArgRange_signedArg w⟩

/-! ### The words that decode -/

/-- The word passes every test of R78: `z` is 0 and `op` is that of a command whose must-be-zero part is 0. -/
def Spells (w : CommandWord) : Prop :=
  bits w 35 34 = 0 ∧
    (((bits w 39 36 = 1 ∨ bits w 39 36 = 4 ∨ bits w 39 36 = 5) ∧ bits w 33 0 = 0) ∨
      (bits w 39 36 = 2 ∧ bits w 31 2 = 0) ∨ (bits w 39 36 = 3 ∧ bits w 31 0 = 0) ∨
      bits w 39 36 = 6 ∨ bits w 39 36 = 7)

theorem exists_decode_ok_iff {w : CommandWord} : (∃ i, decode w = .ok i) ↔ Spells w := by
  constructor
  · rintro ⟨i, h⟩
    have hcases := decode_ok_cases h
    unfold Spells
    tauto
  · rintro ⟨hz, ⟨hop | hop | hop, h0⟩ | ⟨hop, h0⟩ | ⟨hop, h0⟩ | hop | hop⟩
    · exact ⟨_, decode_qinit hz hop h0⟩
    · exact ⟨_, decode_minit hz hop h0⟩
    · exact ⟨_, decode_sinit hz hop h0⟩
    · exact ⟨_, decode_qedge hz hop h0⟩
    · exact ⟨_, decode_qread hz hop h0⟩
    · exact ⟨_, decode_mduty hz hop⟩
    · exact ⟨_, decode_smove hz hop⟩

theorem exists_decode_error_iff {w : CommandWord} : (∃ why, decode w = .error why) ↔ ¬ Spells w := by
  rw [← exists_decode_ok_iff]
  cases decode w <;> simp

/-- The words of R79, as the steps of R78 reject them. -/
theorem not_spells_iff {w : CommandWord} :
    ¬ Spells w ↔
      bits w 39 36 = 0 ∨ 8 ≤ bits w 39 36 ∨ bits w 35 34 ≠ 0 ∨
        ((bits w 39 36 = 1 ∨ bits w 39 36 = 4 ∨ bits w 39 36 = 5) ∧ bits w 33 0 ≠ 0) ∨
        (bits w 39 36 = 3 ∧ bits w 31 0 ≠ 0) ∨ (bits w 39 36 = 2 ∧ bits w 31 2 ≠ 0) := by
  unfold Spells
  omega

theorem bits_op_eq_opcode {w : CommandWord} {i : Instr} (h : decode w = .ok i) : bits w 39 36 = i.opcode := by
  obtain ⟨-, ⟨hop, -, rfl⟩ | ⟨hop, -, rfl⟩ | ⟨hop, -, rfl⟩ | ⟨hop, -, rfl⟩ | ⟨hop, -, rfl⟩ | ⟨hop, rfl⟩ |
    ⟨hop, rfl⟩⟩ := decode_ok_cases h
  all_goals exact hop

/-! ### The match and mask test -/

theorem bits_and (v w : CommandWord) (hi lo : Nat) : bits (v &&& w) hi lo = bits v hi lo &&& bits w hi lo := by
  rw [bits, BitVec.toNat_and, Nat.and_div_two_pow, Nat.and_mod_two_pow]
  rfl

/-- A field whose mask bits are all set is tested as it is. -/
theorem bits_and_of_ones {w m : CommandWord} {hi lo : Nat} (h : bits m hi lo = 2 ^ (hi - lo + 1) - 1) :
    bits (w &&& m) hi lo = bits w hi lo := by
  rw [bits_and, h, Nat.and_two_pow_sub_one_of_lt_two_pow (bits_lt w hi lo)]

/-- A field whose mask bits are all clear is not tested. -/
theorem bits_and_of_zero {w m : CommandWord} {hi lo : Nat} (h : bits m hi lo = 0) : bits (w &&& m) hi lo = 0 := by
  rw [bits_and, h, Nat.and_zero]

/-- The opcode a row tests for (R75). -/
def OpcodeRow.opcode (row : OpcodeRow) : Nat := bits row.pattern 39 36

/-- The match and mask test of every row, field by field: every mask tests `op` and `z`, and every pattern is 0 beside
its `op`. -/
theorem match_iff_fields {row : OpcodeRow} (hrow : row ∈ opcodeTable) (w : CommandWord) :
    w &&& row.mask = row.pattern ↔
      bits w 39 36 = row.opcode ∧ bits w 35 34 = 0 ∧ bits (w &&& row.mask) 33 32 = 0 ∧
        bits (w &&& row.mask) 31 2 = 0 ∧ bits (w &&& row.mask) 1 0 = 0 := by
  have hshape : ∀ row ∈ opcodeTable,
      (bits row.mask 39 36 = 15 ∧ bits row.mask 35 34 = 3) ∧
        (bits row.pattern 35 34 = 0 ∧ bits row.pattern 33 32 = 0 ∧ bits row.pattern 31 2 = 0 ∧
          bits row.pattern 1 0 = 0) := by decide
  obtain ⟨⟨hop, hz⟩, hpz, hpid, hphigh, hplow⟩ := hshape row hrow
  rw [OpcodeRow.opcode, word_eq_iff, bits_and_of_ones hop, bits_and_of_ones hz, hpz, hpid, hphigh, hplow]

/-- Beside `op` and `z` the masks test, by opcode: all of `id` and `arg`; `arg[31:2]`; `arg`; nothing (R75). -/
theorem mask_cases {row : OpcodeRow} (hrow : row ∈ opcodeTable) :
    ((row.opcode = 1 ∨ row.opcode = 4 ∨ row.opcode = 5) ∧ bits row.mask 33 32 = 3 ∧
        bits row.mask 31 2 = 1073741823 ∧ bits row.mask 1 0 = 3) ∨
      (row.opcode = 2 ∧ bits row.mask 33 32 = 0 ∧ bits row.mask 31 2 = 1073741823 ∧ bits row.mask 1 0 = 0) ∨
      (row.opcode = 3 ∧ bits row.mask 33 32 = 0 ∧ bits row.mask 31 2 = 1073741823 ∧ bits row.mask 1 0 = 3) ∨
      ((row.opcode = 6 ∨ row.opcode = 7) ∧ bits row.mask 33 32 = 0 ∧ bits row.mask 31 2 = 0 ∧
        bits row.mask 1 0 = 0) := by
  revert row
  decide

/-- The rows agree with the tests of R78. -/
theorem match_iff_spells {row : OpcodeRow} (hrow : row ∈ opcodeTable) (w : CommandWord) :
    w &&& row.mask = row.pattern ↔ bits w 39 36 = row.opcode ∧ Spells w := by
  have harg := bits_arg_eq w
  rw [match_iff_fields hrow, Spells, bits_id_arg_eq_zero]
  obtain ⟨hop, hid, hhigh, hlow⟩ | ⟨hop, hid, hhigh, hlow⟩ | ⟨hop, hid, hhigh, hlow⟩ | ⟨hop, hid, hhigh, hlow⟩ :=
    mask_cases hrow
  · rw [bits_and_of_ones hid, bits_and_of_ones hhigh, bits_and_of_ones hlow]
    omega
  · rw [bits_and_of_zero hid, bits_and_of_ones hhigh, bits_and_of_zero hlow]
    omega
  · rw [bits_and_of_zero hid, bits_and_of_ones hhigh, bits_and_of_ones hlow]
    omega
  · rw [bits_and_of_zero hid, bits_and_of_zero hhigh, bits_and_of_zero hlow]
    omega

theorem mnemonic_eq_iff {row : OpcodeRow} (hrow : row ∈ opcodeTable) (i : Instr) :
    i.mnemonic = row.mnemonic ↔ i.opcode = row.opcode := by
  revert row
  cases i <;> simp only [Instr.mnemonic, Instr.opcode] <;> decide

/-- A word matches a row exactly when it decodes to that row's command. -/
theorem match_iff_decode {row : OpcodeRow} (hrow : row ∈ opcodeTable) (w : CommandWord) :
    w &&& row.mask = row.pattern ↔ ∃ i, decode w = .ok i ∧ i.mnemonic = row.mnemonic := by
  rw [match_iff_spells hrow, ← exists_decode_ok_iff]
  constructor
  · rintro ⟨hop, i, hi⟩
    exact ⟨i, hi, (mnemonic_eq_iff hrow i).mpr (bits_op_eq_opcode hi ▸ hop)⟩
  · rintro ⟨i, hi, hname⟩
    exact ⟨(bits_op_eq_opcode hi).trans ((mnemonic_eq_iff hrow i).mp hname), i, hi⟩

/-- Every command has its row. -/
theorem exists_row (i : Instr) : ∃ row ∈ opcodeTable, i.mnemonic = row.mnemonic := by
  cases i <;> simp only [Instr.mnemonic] <;> decide

/-- R79 by the rows is R79 by the decoding procedure. -/
theorem no_row_matches_iff {w : CommandWord} :
    (∀ row ∈ opcodeTable, w &&& row.mask ≠ row.pattern) ↔ ¬ Spells w := by
  rw [← exists_decode_ok_iff]
  constructor
  · rintro hno ⟨i, hi⟩
    obtain ⟨row, hrow, hname⟩ := exists_row i
    exact hno row hrow ((match_iff_decode hrow w).mpr ⟨i, hi, hname⟩)
  · intro hno row hrow hmatch
    obtain ⟨i, hi, -⟩ := (match_iff_decode hrow w).mp hmatch
    exact hno ⟨i, hi⟩

theorem opcode_injective_on_table : ∀ r₁ ∈ opcodeTable, ∀ r₂ ∈ opcodeTable, r₁.opcode = r₂.opcode → r₁ = r₂ := by
  decide

/-- Settles O3: the rejected words are those that spell no command; a word that decodes has its operands in its fields. -/
theorem decodingFollowsTheProcedure : Obligations.DecodingFollowsTheProcedure := by
  intro w
  refine ⟨by rw [exists_decode_error_iff, not_spells_iff], ?_, fun row hrow => match_iff_decode hrow w⟩
  intro i h
  obtain ⟨-, ⟨hop, -, rfl⟩ | ⟨hop, -, rfl⟩ | ⟨hop, -, rfl⟩ | ⟨hop, -, rfl⟩ | ⟨hop, -, rfl⟩ | ⟨hop, rfl⟩ |
    ⟨hop, rfl⟩⟩ := decode_ok_cases h
  all_goals simp [hop, idField_val, rawField_toNat, signedArg]

/-- Settles O4: each row tests for an opcode of its own. -/
theorem opcodeRowsAreDisjoint : Obligations.OpcodeRowsAreDisjoint := by
  constructor
  · intro w r₁ r₂ h₁ h₂ hw₁ hw₂
    obtain ⟨hop₁, -⟩ := (match_iff_spells h₁ w).mp hw₁
    obtain ⟨hop₂, -⟩ := (match_iff_spells h₂ w).mp hw₂
    exact opcode_injective_on_table r₁ h₁ r₂ h₂ (hop₁.symm.trans hop₂)
  · intro i
    cases i <;> simp [Instr.port, Instr.mnemonic]

/-- Settles O5: the operands of R82 put into their fields. -/
theorem workedEncodings : Obligations.WorkedEncodings := by
  unfold Obligations.WorkedEncodings
  decide

/-- Settles O6: one word for every row, and one for each reason to reject. -/
theorem wordsReadAsTheyAreSpelt : Obligations.WordsReadAsTheyAreSpelt := by
  unfold Obligations.WordsReadAsTheyAreSpelt
  decide

end Sys2Proof
end

section
/-!
PROOFS. What becomes of a word that is taken: every command is its three guards, in the order of R162, before a next
state, so its verdicts and the condition of its completion are read off from the guards.
-/

namespace Sys2Proof.Machine

/-! ### The guards of a command -/

/-- The guard of R74 before an operation that always completes. -/
theorem withInstance_eq_require {n : Nat} (id : Fin 4) (f : Fin n → State) (s : State) :
    ∃ t, withInstance n id (fun i => .next (f i)) = require (decide (id.val < n)) .badId (.next t) := by
  by_cases h : id.val < n
  · exact ⟨f ⟨id.val, h⟩, by simp [withInstance, h]⟩
  · exact ⟨s, by simp [withInstance, h]⟩

/-- R77, R161, R162: port before validity flag before id, and then a next state. -/
theorem exec_eq_guards (i : Instr) (s : State) :
    ∃ t, exec i s =
      requirePort i.port s (require (unitReady i s) .uninitialised (require (idExists i) .badId (.next t))) := by
  cases i with
  | qinit | minit | sinit => exact ⟨_, rfl⟩
  | qedge id raw =>
    obtain ⟨t, ht⟩ := withInstance_eq_require (n := 2) id
      (fun i => { s with qdec := s.qdec.edge Config.actual i raw }) s
    exact ⟨t, congrArg (fun k => requirePort .edge s (requireQdec s k)) ht⟩
  | qread id =>
    obtain ⟨t, ht⟩ := withInstance_eq_require (n := 2) id (fun i => s.respond (s.qdec.read i)) s
    exact ⟨t, congrArg (fun k => requirePort .host s (requireQdec s k)) ht⟩
  | mduty id percent =>
    obtain ⟨t, ht⟩ := withInstance_eq_require (n := 2) id
      (fun m => { s with motor := s.motor.command (motorCompare Config.actual) m (storeSigned percent) }) s
    exact ⟨t, congrArg (fun k => requirePort .host s (requireMotor s k)) ht⟩
  | smove id degree =>
    obtain ⟨t, ht⟩ := withInstance_eq_require (n := 3) id
      (fun ch => { s with servo := s.servo.command (servoCompare Config.actual) ch (wrapDegree degree) }) s
    exact ⟨t, congrArg (fun k => requirePort .host s (requireServo s k)) ht⟩

/-- Settles O14: a guarded next state is reached exactly when every guard holds. -/
theorem commandCompletesExactlyWhenLegal : Obligations.CommandCompletesExactlyWhenLegal := by
  intro i s
  obtain ⟨t, ht⟩ := exec_eq_guards i s
  simp [ht, requirePort_next, require_next]

/-! ### Taking a word -/

/-- Settles O9: taking the first event decodes its word and executes the command on its port. -/
theorem stepRunsTheDecodedCommand : Obligations.StepRunsTheDecodedCommand := by
  intro s p w rest i hin hw
  rw [step_event hin, deliver_command _ hw]

theorem step_of_decode_error {s : State} {p : Port} {w : CommandWord} {rest : List Event} {why : Reject}
    (hin : s.inputs = .command p w :: rest) (hw : decode w = .error why) :
    step s = .refused (.invalidWord why) := by
  rw [step_event hin, deliver, hw]

/-- The validity flags are no interface fields. -/
theorem unitReady_interface (i : Instr) (s : State) (rest : List Event) (p : Port) :
    unitReady i { s with inputs := rest, port := p } = unitReady i s := by
  cases i <;> rfl

/-- Settles O13: the guards of the decoded command stand in the order of the verdicts. -/
theorem verdictsInOrder : Obligations.VerdictsInOrder := by
  intro s p w rest hin
  refine ⟨fun why hw => step_of_decode_error hin hw, fun i hw => ?_⟩
  rw [stepRunsTheDecodedCommand s p w rest i hin hw]
  obtain ⟨t, ht⟩ := exec_eq_guards i { s with inputs := rest, port := p }
  rw [ht, unitReady_interface]
  refine ⟨fun hp => requirePort_other hp, fun hp hunit => ?_, fun hp hunit hid => ?_, fun hp hunit hid => ⟨t, ?_⟩⟩
  · rw [requirePort_self hp, hunit, require_false]
  · rw [requirePort_self hp, hunit, hid, require_true, require_false]
  · rw [requirePort_self hp, hunit, hid, require_true, require_true]

theorem step_of_not_spells {s : State} {p : Port} {w : CommandWord} {rest : List Event}
    (hin : s.inputs = .command p w :: rest) (hw : ¬ Spells w) : ∃ why, step s = .refused (.invalidWord why) := by
  obtain ⟨why, hwhy⟩ := exists_decode_error_iff.mpr hw
  exact ⟨why, step_of_decode_error hin hwhy⟩

/-- Settles O7: the words that no row matches are those the decoder rejects; the all-zero word has `op` 0 and the all-ones
word `op` 15. -/
theorem invalidWordsAreRefused : Obligations.InvalidWordsAreRefused := by
  intro s p w rest hin
  refine ⟨fun hno => step_of_not_spells hin (no_row_matches_iff.mp hno), ?_, ?_⟩
  · have hzero : bits w 33 0 = 0 ↔ bits w 33 32 = 0 ∧ bits w 31 0 = 0 := bits_id_arg_eq_zero
    rw [no_row_matches_iff, not_spells_iff]
    omega
  · rintro (rfl | rfl)
    · exact ⟨_, step_of_decode_error hin (why := .reservedOpcode) (by decide)⟩
    · exact ⟨_, step_of_decode_error hin (why := .reservedOpcode) (by decide)⟩

/-! ### Assembler text -/

/-- Settles O8: the lines taken apart by the rules of R81. -/
theorem assemblerSpellsCommands : Obligations.AssemblerSpellsCommands := by
  unfold Obligations.AssemblerSpellsCommands
  decide

end Sys2Proof.Machine
end

section
/-!
PROOFS. The quadrature decoder: the verdicts and next states of QINIT, QEDGE and QREAD (R90, R92, R96), what a run has
counted (R97, R100), which commands commute (R99), the initialisations issued twice (R91), and a handled edge (R168).
-/

namespace Sys2Proof.Machine

/-! ### The verdicts of a command, in their order -/

theorem exec_wrongPort {i : Instr} {s : State} (hp : s.port ≠ i.port) : exec i s = .fault .wrongPort := by
  obtain ⟨t, ht⟩ := exec_eq_guards i s
  rw [ht, requirePort_other hp]

theorem exec_uninitialised {i : Instr} {s : State} (hp : s.port = i.port) (hunit : unitReady i s = false) :
    exec i s = .fault .uninitialised := by
  obtain ⟨t, ht⟩ := exec_eq_guards i s
  rw [ht, requirePort_self hp, hunit, require_false]

theorem exec_badId {i : Instr} {s : State} (hp : s.port = i.port) (hunit : unitReady i s = true)
    (hid : idExists i = false) : exec i s = .fault .badId := by
  obtain ⟨t, ht⟩ := exec_eq_guards i s
  rw [ht, requirePort_self hp, hunit, hid, require_true, require_false]

/-! ### The three commands -/

/-- Settles O18: past its port, QINIT writes QDEC and nothing else. -/
theorem qinitResetsBothEncoders : Obligations.QinitResetsBothEncoders :=
  ⟨by decide, fun _ => ⟨fun hp => execQinit_next.mpr ⟨hp, rfl⟩, fun hp => exec_wrongPort hp⟩⟩

theorem encode_qedge (id : Fin 4) (raw : Phase) :
    encode (.qedge id raw) = BitVec.ofNat 40 (0x2000000000 + id.val * 2 ^ 32 + raw.toNat) := by
  simp only [encode, formatC, Nat.reducePow, Nat.reduceMul]

theorem encode_qread (id : Fin 4) : encode (.qread id) = BitVec.ofNat 40 (0x3000000000 + id.val * 2 ^ 32) := by
  simp only [encode, formatC, Nat.reducePow, Nat.reduceMul, add_zero]

/-- Settles O19: the three guards in their order, and then one edge of the encoder that `id` names. -/
theorem qedgeStepsTheDecoder : Obligations.QedgeStepsTheDecoder := by
  intro id raw s
  refine ⟨encode_qedge id raw, fun hp => exec_wrongPort hp, fun hp hq => exec_uninitialised hp hq,
    fun hp hq hid => ?_, fun hp hq i hi => ?_⟩
  · exact exec_badId hp hq (decide_eq_false (by omega))
  · refine ⟨_, _, qedgeUnder_eq Config.actual raw hp hq hi, rfl, delta_range _ _ _, ?_, set_same _ i _,
      fun j hj => ⟨set_other _ i j _ hj, set_other _ i j _ hj⟩, rfl, rfl, rfl, rfl, rfl, rfl⟩
    rw [Qdec.edge_position, set_same, storeSigned_toInt]

/-- A 32-bit register holds a value of the operand range. -/
theorem inArgRange_toInt (w : Word) : inArgRange w.toInt = true := by
  have hlow := BitVec.le_toInt w
  have hhigh := BitVec.toInt_lt (x := w)
  rw [inArgRange, Bool.and_eq_true, decide_eq_true_eq, decide_eq_true_eq]
  omega

/-- Settles O28: the three guards in their order, and then one response; `sext_32` undoes `trunc_32` on the position. -/
theorem qreadRespondsWithThePosition : Obligations.QreadRespondsWithThePosition := by
  intro id s
  refine ⟨encode_qread id, fun hp => exec_wrongPort hp, fun hp hq => exec_uninitialised hp hq,
    fun hp hq hid => ?_, fun hp hq i hi => ?_⟩
  · exact exec_badId hp hq (decide_eq_false (by omega))
  · have hread : (s.qdec.read i).toNat = trunc 32 (s.qdec.position[i]).toInt := storeUnsigned_toNat _
    exact ⟨_, execQread_eq hp hq hi, hread, by rw [hread, sext_trunc (inArgRange_toInt _)]⟩

/-! ### Initialising twice -/

/-- A write guarded by the port alone, which keeps the port and changes nothing when repeated, may be issued twice. -/
theorem requirePort_write_twice {p : Port} {write : State → State} (hport : ∀ s, (write s).port = s.port)
    (hwrite : ∀ s, write (write s) = write s) (s : State) :
    andThen (requirePort p s (.next (write s))) (fun u => requirePort p u (.next (write u))) =
      requirePort p s (.next (write s)) := by
  by_cases hp : s.port = p
  · rw [requirePort_self hp, andThen_next, requirePort_self ((hport s).trans hp), hwrite]
  · rw [requirePort_other hp, andThen_fault]

/-- Settles O34: an initialisation writes constants, so writing them again changes nothing. -/
theorem initialisationsAreIdempotent : Obligations.InitialisationsAreIdempotent := by
  rintro i s (rfl | rfl | rfl)
  · exact requirePort_write_twice (write := fun s => { s with qdec := Qdec.initialised }) (fun _ => rfl)
      (fun _ => rfl) s
  · exact requirePort_write_twice (write := fun s => { s with motor := motorInitialised s.motor }) (fun _ => rfl)
      (fun _ => rfl) s
  · exact requirePort_write_twice (write := fun s => { s with servo := servoInitialised s.servo }) (fun _ => rfl)
      (fun _ => rfl) s

/-! ### Taking an edge or a read -/

/-- R92: an edge of an encoder the hardware has, taken with QDEC initialised. -/
theorem deliver_qedge {s : State} (i : Fin 2) (raw : Phase) (hq : s.qdec.init = true) :
    deliver (ownPortEvent (.qedge (i.castLE (by decide)) raw)) s =
      .next { s with port := .edge, qdec := s.qdec.edge Config.actual i raw } :=
  (deliver_command s (decodeEncodeRoundTrip _ rfl)).trans
    (qedgeUnder_eq (s := { s with port := .edge }) Config.actual raw rfl hq rfl)

/-- R96: a read of an encoder the hardware has completes exactly with QDEC initialised. -/
theorem deliver_qread_next {i : Fin 2} {s t : State} :
    deliver (qreadEvent i) s = .next t ↔
      s.qdec.init = true ∧
        { s with port := .host, responses := s.responses ++ [s.qdec.position[i]] } = t := by
  have hdeliver : deliver (qreadEvent i) s = execQread (i.castLE (by decide)) { s with port := .host } :=
    deliver_command s (decodeEncodeRoundTrip _ rfl)
  rw [hdeliver, ← Qdec.read_eq_position]
  constructor
  · intro h
    obtain ⟨-, hq, k, hk, rfl⟩ := execQread_next.mp h
    cases Fin.ext (a := k) (b := i) hk
    exact ⟨hq, rfl⟩
  · rintro ⟨hq, rfl⟩
    exact execQread_eq (s := { s with port := .host }) rfl hq rfl

theorem play_qread {s : State} (i : Fin 2) (hq : s.qdec.init = true) :
    play [qreadEvent i] s = .next { s with port := .host, responses := s.responses ++ [s.qdec.position[i]] } :=
  play_cons_next.mpr ⟨_, deliver_qread_next.mpr ⟨hq, rfl⟩, rfl⟩

theorem sample_toNat (lineA lineB : Bool) : (sample lineA lineB).toNat = 2 * lineA.toNat + lineB.toNat := by
  revert lineA lineB
  decide

/-- Settles O50: the handler's event is a QEDGE of the pin's encoder with the sample of its lines. -/
theorem handledEdgeCountsOnce : Obligations.HandledEdgeCountsOnce := by
  intro pin lineA lineB s rest hq hin
  have hnext := (step_event hin).trans
    (deliver_qedge (s := { s with inputs := rest }) pin.encoder (sample lineA lineB) hq)
  refine ⟨_, hnext, rfl, ?_, ?_,
    fun j hj => ⟨set_other _ _ j _ hj, set_other _ _ j _ hj⟩, rfl, rfl, rfl⟩
  · rw [Qdec.edge_phase, set_same, sample_toNat]
  · rw [Qdec.edge_phase, Qdec.edge_position, set_same, set_same, storeSigned_toInt]

/-! ### What a run has counted -/

section Counted
variable (c : Config) (q : Qdec) (w : List Event)

theorem Qdec.edges_init (i : Fin 2) (raws : List Phase) : (q.edges c i raws).init = q.init := by
  rw [Qdec.edges_eq]

theorem Qdec.edges_same (i : Fin 2) (raws : List Phase) :
    (q.edges c i raws).phase[i] = lastSample q.phase[i] raws ∧
      (q.edges c i raws).position[i] = storeSigned ((q.position[i]).toInt + deltaSum c q.phase[i] raws) := by
  rw [Qdec.edges_eq]
  exact ⟨set_same _ i _, set_same _ i _⟩

theorem Qdec.edges_other {i j : Fin 2} (h : j ≠ i) (raws : List Phase) :
    (q.edges c i raws).phase[j] = q.phase[j] ∧ (q.edges c i raws).position[j] = q.position[j] := by
  rw [Qdec.edges_eq]
  exact ⟨set_other _ i j _ h, set_other _ i j _ h⟩

theorem Qdec.counted_init : (q.counted w).init = q.init := by
  rw [Qdec.counted, Qdec.edges_init, Qdec.edges_init]

/-- R97: each encoder holds its own last sample and its own sum. -/
theorem Qdec.counted_encoder (i : Fin 2) :
    (q.counted w).phase[i] = lastSample q.phase[i] (edgesOf i w) ∧
      (q.counted w).position[i] =
        storeSigned ((q.position[i]).toInt + deltaSum Config.actual q.phase[i] (edgesOf i w)) := by
  match i with
  | 0 =>
    obtain ⟨hphase, hposition⟩ := Qdec.edges_other Config.actual (q.edges Config.actual 0 (edgesOf 0 w))
      (i := 1) (j := 0) (by decide) (edgesOf 1 w)
    rw [Qdec.counted, hphase, hposition]
    exact Qdec.edges_same Config.actual q 0 (edgesOf 0 w)
  | 1 =>
    obtain ⟨hphase, hposition⟩ := Qdec.edges_other Config.actual q (i := 0) (j := 1) (by decide) (edgesOf 0 w)
    rw [← hphase, ← hposition]
    exact Qdec.edges_same Config.actual (q.edges Config.actual 0 (edgesOf 0 w)) 1 (edgesOf 1 w)

end Counted

theorem Qdec.initialised_encoder (i : Fin 2) :
    Qdec.initialised.phase[i] = 0 ∧ (Qdec.initialised.position[i]).toInt = 0 := by
  revert i
  decide

section AfterQinit
variable {w : List Event} {s t : State} (hq : ∀ e ∈ w, e.notQinit = true)
  (h : play (qinitEvent :: w) s = .next t)
include hq h

theorem play_qinit_init : t.qdec.init = true := by
  rw [play_qinit_qdec hq h, Qdec.counted_init, Qdec.initialised_init]

theorem play_qinit_phase (i : Fin 2) : t.qdec.phase[i] = lastSample 0 (edgesOf i w) := by
  obtain ⟨hphase, -⟩ := Qdec.initialised_encoder i
  obtain ⟨hlast, -⟩ := Qdec.counted_encoder Qdec.initialised w i
  rw [play_qinit_qdec hq h, hlast, hphase]

theorem play_qinit_position (i : Fin 2) :
    (t.qdec.position[i]).toInt = wrap 32 (deltaSum Config.actual 0 (edgesOf i w)) := by
  obtain ⟨hphase, hposition⟩ := Qdec.initialised_encoder i
  obtain ⟨-, hsum⟩ := Qdec.counted_encoder Qdec.initialised w i
  rw [play_qinit_qdec hq h, hsum, hphase, hposition, storeSigned_toInt, zero_add]

end AfterQinit

/-- Each edge moves the sum by at most one (tier 1 of R25). -/
theorem deltaSum_range (c : Config) (p : Phase) (raws : List Phase) :
    -(raws.length : Int) ≤ deltaSum c p raws ∧ deltaSum c p raws ≤ raws.length := by
  induction raws generalizing p with
  | nil => simp [deltaSum]
  | cons raw raws ih =>
    obtain ⟨hlow, hhigh⟩ := ih raw
    have hdelta := delta_range c p raw
    rw [deltaSum, List.length_cons]
    omega

/-- R97: fewer than `2^31` edges do not reach the ends of the range. -/
theorem wrap_deltaSum (c : Config) (p : Phase) {raws : List Phase} (h : raws.length < 2147483648) :
    wrap 32 (deltaSum c p raws) = deltaSum c p raws := by
  obtain ⟨hlow, hhigh⟩ := deltaSum_range c p raws
  apply wrap_of_inArgRange
  rw [inArgRange, Bool.and_eq_true, decide_eq_true_eq, decide_eq_true_eq]
  omega

/-- Settles O24: QDEC after the run has each encoder's edges counted, from phase 0 and position 0. -/
theorem accumulationLaw : Obligations.AccumulationLaw := fun _ _ _ i hq h =>
  ⟨play_qinit_phase hq h i, play_qinit_position hq h i, wrap_deltaSum _ _⟩

/-- Settles O26: the run leaves QDEC initialised, so the read completes and answers the position. -/
theorem readAnswersTheAccumulatedCount : Obligations.ReadAnswersTheAccumulatedCount := by
  intro w s u i hq h
  have hread : play (qinitEvent :: (w ++ [qreadEvent i])) s = play [qreadEvent i] u := by
    rw [← List.cons_append, play_append, h, andThen_next]
  exact ⟨_, _, hread.trans (play_qread i (play_qinit_init hq h)), rfl, play_qinit_position hq h i, rfl⟩

/-! ### Commuting commands of different encoders -/

theorem qedgeUnder_badId (c : Config) {id : Fin 4} (raw : Phase) {s : State} (hp : s.port = .edge)
    (hq : s.qdec.init = true) (hid : ¬ id.val < 2) : qedgeUnder c id raw s = .fault .badId := by
  rw [qedgeUnder, requirePort_self hp, requireQdec, hq, require_true, withInstance_none hid]

/-- Two edges of which one names no encoder end in that fault, whichever comes first. -/
theorem qedgeUnder_pair_badId (c : Config) {id jd : Fin 4} (a b : Phase) {s : State} (hp : s.port = .edge)
    (hq : s.qdec.init = true) (hbad : ¬ (id.val < 2 ∧ jd.val < 2)) :
    andThen (qedgeUnder c id a s) (qedgeUnder c jd b) = .fault .badId := by
  by_cases hid : id.val < 2
  · rw [qedgeUnder_eq c a (i := ⟨id.val, hid⟩) hp hq rfl, andThen_next]
    exact qedgeUnder_badId c b hp hq fun hjd => hbad ⟨hid, hjd⟩
  · rw [qedgeUnder_badId c a hp hq hid, andThen_fault]

theorem qedgeUnder_pair (c : Config) {id jd : Fin 4} (a b : Phase) {s : State} {i j : Fin 2} (hp : s.port = .edge)
    (hq : s.qdec.init = true) (hi : i.val = id.val) (hj : j.val = jd.val) :
    andThen (qedgeUnder c id a s) (qedgeUnder c jd b) =
      .next { s with qdec := (s.qdec.edge c i a).edge c j b } := by
  rw [qedgeUnder_eq c a hp hq hi, andThen_next]
  exact qedgeUnder_eq c b (s := { s with qdec := s.qdec.edge c i a }) hp hq hj

/-- R99, verdicts included: the guards do not depend on which edge comes first. -/
theorem qedgeUnder_comm (c : Config) {id jd : Fin 4} (a b : Phase) (s : State) (hne : id ≠ jd) :
    andThen (qedgeUnder c id a s) (qedgeUnder c jd b) = andThen (qedgeUnder c jd b s) (qedgeUnder c id a) := by
  by_cases hp : s.port = .edge
  · by_cases hq : s.qdec.init = true
    · by_cases hid : id.val < 2 ∧ jd.val < 2
      · obtain ⟨hi, hj⟩ := hid
        have hij : (⟨id.val, hi⟩ : Fin 2) ≠ ⟨jd.val, hj⟩ := fun h => hne (Fin.ext (Fin.mk.inj h))
        rw [qedgeUnder_pair c a b hp hq (i := ⟨id.val, hi⟩) (j := ⟨jd.val, hj⟩) rfl rfl,
          qedgeUnder_pair c b a hp hq (i := ⟨jd.val, hj⟩) (j := ⟨id.val, hi⟩) rfl rfl, Qdec.edge_comm c hij]
      · rw [qedgeUnder_pair_badId c a b hp hq hid, qedgeUnder_pair_badId c b a hp hq fun h => hid h.symm]
    · simp only [qedgeUnder, requirePort_self hp, requireQdec, hq, require_false, andThen_fault]
  · simp only [qedgeUnder, requirePort_other hp, andThen_fault]

/-- R99: an edge of the other encoder leaves what a read answers. -/
theorem qread_qedge_comm {i j : Fin 2} (hij : i ≠ j) (b : Phase) {s t : State}
    (h : play [qreadEvent i, ownPortEvent (.qedge (j.castLE (by decide)) b)] s = .next t) :
    ∃ t', play [ownPortEvent (.qedge (j.castLE (by decide)) b), qreadEvent i] s = .next t' ∧ SameArch t t' := by
  obtain ⟨u, hread, hedge⟩ := play_cons_next.mp h
  obtain ⟨hq, hu⟩ := deliver_qread_next.mp hread
  have hqu : u.qdec.init = true := hu ▸ hq
  rw [play_cons, deliver_qedge j b hqu] at hedge
  cases hedge
  subst hu
  refine ⟨_, play_cons_next.mpr ⟨_, deliver_qedge j b hq, play_qread i hq⟩, rfl, rfl, rfl, ?_⟩
  rw [Qdec.edge_position, set_other _ _ _ _ hij]

/-- Settles O27: one encoder's edge touches neither the other's elements nor the guards. -/
theorem crossEncoderEdgesCommute : Obligations.CrossEncoderEdgesCommute :=
  ⟨fun c _ _ a b s hne => qedgeUnder_comm c a b s hne, fun _ _ b _ _ hij h => qread_qedge_comm hij b h⟩

end Sys2Proof.Machine
end

section
/-!
PROOFS. The actuator driver: the verdicts and next states of MINIT, SINIT, MDUTY and SMOVE (R121, R123, R125, R128), the
arithmetic of the two tick formulas (R120, R127, R130), which channel commands absorb each other or commute, and the
duty as a fraction of the period (R133).
-/

namespace Sys2Proof

/-! ### Half of a product, toward zero -/

theorem two_mul_tdiv_two_of_even {a : Int} (h : a % 2 = 0) : 2 * tdiv a 2 = a := by
  unfold tdiv
  split <;> omega

theorem two_mul_tdiv_two_of_odd_nonneg {a : Int} (h : a % 2 = 1) (h0 : 0 ≤ a) : 2 * tdiv a 2 = a - 1 := by
  rw [tdiv, if_pos h0]
  omega

theorem two_mul_tdiv_two_of_odd_neg {a : Int} (h : a % 2 = 1) (h0 : a < 0) : 2 * tdiv a 2 = a + 1 := by
  rw [tdiv, if_neg (by omega)]
  omega

theorem tdiv_two_mono {a b : Int} (h : a ≤ b) : tdiv a 2 ≤ tdiv b 2 := by
  unfold tdiv
  split <;> split <;> omega

theorem tdiv_two_neg (a : Int) : tdiv (-a) 2 = -tdiv a 2 := by
  rw [tdiv_two, tdiv_two, Int.neg_tdiv]

/-! ### The ticks of a duty -/

section MotorTicks
variable (c : Config)

theorem motorTicks_zero : motorTicks c 0 = 0 := by
  rw [motorTicks, mul_zero]
  rfl

theorem motorTicks_hundred : motorTicks c 100 = c.ticksPerUs * 50 := by
  have heven := two_mul_tdiv_two_of_even (a := c.ticksPerUs * 100) (by omega)
  unfold motorTicks
  omega

theorem motorTicks_neg (p : Int) : motorTicks c (-p) = -motorTicks c p := by
  rw [motorTicks, mul_neg, tdiv_two_neg, motorTicks]

variable {c}

theorem motorTicks_mono {p q : Int} (h : p ≤ q) : motorTicks c p ≤ motorTicks c q := by
  have hticks := ticksPerUs_pos c
  exact tdiv_two_mono (Int.mul_le_mul_of_nonneg_left h (by omega))

theorem motorTicks_nonneg {p : Int} (h : 0 ≤ p) : 0 ≤ motorTicks c p :=
  (motorTicks_zero c).symm.trans_le (motorTicks_mono h)

/-- R127 (b): below `2^32` a register loses no bit, so it follows the ticks. -/
theorem trunc_motorTicks_mono {p q : Int} (hp : 0 ≤ p) (hpq : p ≤ q) (hq : motorTicks c q < 4294967296) :
    trunc 32 (motorTicks c p) ≤ trunc 32 (motorTicks c q) := by
  have hticks := motorTicks_mono (c := c) hpq
  rw [← Int.ofNat_le, trunc_of_range (motorTicks_nonneg hp) (hticks.trans_lt hq),
    trunc_of_range (motorTicks_nonneg (hp.trans hpq)) hq]
  exact hticks

theorem two_mul_motorTicks_of_odd {p : Int} (h : c.ticksPerUs * p % 2 = 1) :
    (0 ≤ p → 2 * motorTicks c p = c.ticksPerUs * p - 1) ∧ (p < 0 → 2 * motorTicks c p = c.ticksPerUs * p + 1) := by
  have hticks := ticksPerUs_pos c
  exact ⟨fun h0 => two_mul_tdiv_two_of_odd_nonneg h (Int.mul_nonneg (by omega) h0),
    fun h0 => two_mul_tdiv_two_of_odd_neg h (Int.mul_neg_of_pos_of_neg (by omega) h0)⟩

end MotorTicks

/-- Settles O35: the ticks are half of a product, and halving toward zero is monotone, odd, and off by a half at most. -/
theorem motorTicksLaws : Obligations.MotorTicksLaws := fun c =>
  ⟨motorTicks_zero c, motorTicks_hundred c, fun _ _ => motorTicks_mono, fun _ _ => trunc_motorTicks_mono,
    fun _ => two_mul_tdiv_two_of_even, fun _ => two_mul_motorTicks_of_odd, motorTicks_neg c⟩

/-! ### The ticks of an angle -/

theorem wrapDegree_add_period (d k : Int) : wrapDegree (d + 180 * k) = wrapDegree d := by
  apply Fin.ext
  rw [← Int.natCast_inj, wrapDegree_val, wrapDegree_val]
  exact Int.add_mul_emod_self_left d 180 k

theorem servoTicks_succ {c : Config} {d : Int} (h : emod d 180 < 179) :
    servoTicks c (d + 1) = servoTicks c d + 1 := by
  unfold emod at h
  unfold servoTicks emod
  omega

theorem servoTicks_succ_wraps {c : Config} {d : Int} (h : emod d 180 = 179) :
    servoTicks c (d + 1) = servoTicks c d - 179 := by
  unfold emod at h
  unfold servoTicks emod
  omega

end Sys2Proof

namespace Sys2Proof.Machine

/-! ### The initialisations of the timers -/

theorem motorInitialised_cmp (p : Pwm 2 Word) (m : Fin 2) :
    ((motorInitialised p).cmp[m]).toNat =
      trunc 32 (motorTicks Config.actual (Config.actual.motorDefaultPercent m)) := by
  rw [motorInitialised, Pwm.initialise_cmp, Fin.getElem_fin, Vector.getElem_ofFn]
  exact motorCompare_toNat _ (inArgRange_motorDefault _ m)

theorem servoInitialised_cmp (p : Pwm 3 (Fin 180)) (ch : Fin 3) :
    ((servoInitialised p).cmp[ch]).toNat =
      trunc 32 (servoTicks Config.actual (Config.actual.servoDefaultDegree ch)) := by
  rw [servoInitialised, Pwm.initialise_cmp, Fin.getElem_fin, Vector.getElem_ofFn]
  exact storeUnsigned_toNat _

theorem exec_minit_eq {s : State} (hp : s.port = .host) :
    exec .minit s = .next { s with motor := motorInitialised s.motor } :=
  minitUnder_next.mpr ⟨hp, rfl⟩

theorem exec_sinit_eq {s : State} (hp : s.port = .host) :
    exec .sinit s = .next { s with servo := servoInitialised s.servo } :=
  sinitUnder_next.mpr ⟨hp, rfl⟩

/-- Settles O30: past its port, MINIT writes its constants and defaults into timer M and nothing else. -/
theorem minitSetsTheDefaults : Obligations.MinitSetsTheDefaults :=
  ⟨by decide, fun s => ⟨fun hp => exec_wrongPort hp, fun hp =>
    ⟨_, exec_minit_eq hp, toNat_eq_motorPeriod.mpr rfl, rfl, rfl,
      fun m => ⟨motorInitialised_cmd s.motor m, motorInitialised_cmp s.motor m⟩,
      rfl, rfl, rfl, rfl, rfl, rfl, rfl, rfl⟩⟩⟩

/-- Settles O31: past its port, SINIT writes its constants and defaults into timer S and nothing else. -/
theorem sinitSetsTheDefaults : Obligations.SinitSetsTheDefaults :=
  ⟨by decide, fun s => ⟨fun hp => exec_wrongPort hp, fun hp =>
    ⟨_, exec_sinit_eq hp, toNat_eq_servoPeriod.mpr rfl, rfl, rfl,
      fun ch => ⟨servoInitialised_cmd s.servo ch, servoInitialised_cmp s.servo ch⟩,
      rfl, rfl, rfl, rfl, rfl, rfl, rfl, rfl⟩⟩⟩

/-! ### The channel commands -/

theorem encode_mduty (id : Fin 4) (percent : Int) :
    encode (.mduty id percent) = BitVec.ofNat 40 (0x6000000000 + id.val * 2 ^ 32 + trunc 32 percent) := by
  simp only [encode, formatC, Nat.reducePow, Nat.reduceMul]

theorem encode_smove (id : Fin 4) (degree : Int) :
    encode (.smove id degree) = BitVec.ofNat 40 (0x7000000000 + id.val * 2 ^ 32 + trunc 32 degree) := by
  simp only [encode, formatC, Nat.reducePow, Nat.reduceMul]

/-- The compare register of any angle: `servo_ticks`, with no bit lost. -/
theorem servoCompare_wrapDegree_toNat (c : Config) (degree : Int) :
    ((servoCompare c (wrapDegree degree)).toNat : Int) = servoTicks c degree := by
  rw [servoCompare_toNat, servoTicks_wrapDegree]

section Command
variable {n : Nat} {α : Type} (p : Pwm n α) (ticks : α → Word)

theorem Pwm.command_same (ch : Fin n) (v : α) :
    (p.command ticks ch v).cmd[ch] = v ∧ (p.command ticks ch v).cmp[ch] = ticks v :=
  ⟨set_same _ ch _, set_same _ ch _⟩

theorem Pwm.command_other {ch k : Fin n} (hk : k ≠ ch) (v : α) :
    (p.command ticks ch v).cmd[k] = p.cmd[k] ∧ (p.command ticks ch v).cmp[k] = p.cmp[k] :=
  ⟨set_other _ ch k _ hk, set_other _ ch k _ hk⟩

/-- The second command to a channel writes all that the first one wrote. -/
theorem Pwm.command_command_same (ch : Fin n) (v w : α) :
    (p.command ticks ch v).command ticks ch w = p.command ticks ch w := by
  simp only [Pwm.command, Vector.set_set]

theorem Pwm.command_comm {ch k : Fin n} (h : ch ≠ k) (v w : α) :
    (p.command ticks ch v).command ticks k w = (p.command ticks k w).command ticks ch v := by
  have hval : ch.val ≠ k.val := fun e => h (Fin.ext e)
  simp only [Pwm.command]
  rw [Vector.set_comm _ _ hval, Vector.set_comm _ _ hval]

end Command

/-- Settles O32: the three guards in their order, and then one command to the channel that `id` names. -/
theorem mdutyWritesTheCompareRegister : Obligations.MdutyWritesTheCompareRegister := by
  intro id percent s hrange
  refine ⟨encode_mduty id percent, fun hp => exec_wrongPort hp, fun hp hinit => exec_uninitialised hp hinit,
    fun hp hinit hid => ?_, fun hp hinit m hm => ?_⟩
  · exact exec_badId hp hinit (decide_eq_false (by omega))
  · obtain ⟨hcmd, hcmp⟩ := s.motor.command_same (motorCompare Config.actual) m (storeSigned percent)
    refine ⟨_, mdutyUnder_eq Config.actual percent hp hinit hm, ?_, ?_, fun k hk => s.motor.command_other _ hk _,
      rfl, rfl, rfl, rfl, rfl, rfl, rfl, rfl, rfl, rfl, rfl⟩
    · rw [hcmd, storeSigned_toInt, wrap_of_inArgRange hrange]
    · rw [hcmp, motorCompare_toNat _ hrange]

/-- Settles O33: the three guards in their order, and then one command to the channel that `id` names, with the wrapped
angle. -/
theorem smoveWritesTheWrappedAngle : Obligations.SmoveWritesTheWrappedAngle := by
  intro id degree s _
  refine ⟨encode_smove id degree, fun hp => exec_wrongPort hp, fun hp hinit => exec_uninitialised hp hinit,
    fun hp hinit hid => ?_, fun hp hinit ch hch => ?_⟩
  · exact exec_badId hp hinit (decide_eq_false (by omega))
  · obtain ⟨hcmd, hcmp⟩ := s.servo.command_same (servoCompare Config.actual) ch (wrapDegree degree)
    refine ⟨_, smoveUnder_eq Config.actual degree hp hinit hch, ?_, ?_, ?_, fun k hk => s.servo.command_other _ hk _,
      rfl, rfl, rfl, rfl, rfl, rfl, rfl, rfl, rfl, rfl, rfl⟩
    · rw [hcmd, wrapDegree_val]
    · rw [hcmp, servoCompare, storeUnsigned_toNat, servoTicks_wrapDegree, servoTicks]
    · rw [hcmp, servoCompare_wrapDegree_toNat]

theorem exec_smove_add_period (id : Fin 4) (d k : Int) (s : State) :
    exec (.smove id (d + 180 * k)) s = exec (.smove id d) s := by
  rw [exec_smove, exec_smove, smoveUnder, smoveUnder, wrapDegree_add_period]

/-- R128: what a completed SMOVE leaves in its compare register. -/
theorem exec_smove_cmp {id : Fin 4} {d : Int} {s t : State} {ch : Fin 3} (hch : ch.val = id.val)
    (h : exec (.smove id d) s = .next t) : ((t.servo.cmp[ch]).toNat : Int) = servoTicks Config.actual d := by
  obtain ⟨-, -, k, hk, rfl⟩ := smoveUnder_next.mp h
  obtain rfl : ch = k := Fin.ext (hch.trans hk.symm)
  rw [Pwm.command_cmp, set_same, servoCompare_wrapDegree_toNat]

/-- Settles O37: SMOVE sees the wrapped degree only, and its compare value is `servo_ticks`. -/
theorem smoveIsPeriodicAndBounded : Obligations.SmoveIsPeriodicAndBounded := by
  refine ⟨fun id d k s _ _ => exec_smove_add_period id d k s, fun id d s t ch hch h => ?_,
    fun c d => ⟨servoTicks_succ, servoTicks_succ_wraps⟩⟩
  rw [exec_smove_cmp hch h]
  exact servoTicks_range Config.actual d

/-! ### Two channel commands in a row -/

/-- The shape MDUTY and SMOVE share: the three guards of R162, and then a write to the channel. -/
def channelCommand (n : Nat) (ready : State → Bool) (write : Fin n → State → State) (id : Fin 4) (s : State) : Result :=
  requirePort .host s <| require (ready s) .uninitialised <| withInstance n id fun ch => .next (write ch s)

/-- The write of MDUTY (R125). -/
def motorWrite (percent : Int) (m : Fin 2) (s : State) : State :=
  { s with motor := s.motor.command (motorCompare Config.actual) m (storeSigned percent) }

/-- The write of SMOVE (R128). -/
def servoWrite (degree : Int) (ch : Fin 3) (s : State) : State :=
  { s with servo := s.servo.command (servoCompare Config.actual) ch (wrapDegree degree) }

theorem exec_mduty_eq_channelCommand (id : Fin 4) (percent : Int) :
    exec (.mduty id percent) = channelCommand 2 (fun s => s.motor.init) (motorWrite percent) id := rfl

theorem exec_smove_eq_channelCommand (id : Fin 4) (degree : Int) :
    exec (.smove id degree) = channelCommand 3 (fun s => s.servo.init) (servoWrite degree) id := rfl

theorem withInstance_congr {n : Nat} {id : Fin 4} {k l : Fin n → Result} (h : ∀ i : Fin n, i.val = id.val → k i = l i) :
    withInstance n id k = withInstance n id l := by
  by_cases hid : id.val < n
  · rw [withInstance_some (i := ⟨id.val, hid⟩) rfl, withInstance_some (i := ⟨id.val, hid⟩) rfl, h _ rfl]
  · rw [withInstance_none hid, withInstance_none hid]

/-- Whichever of two ids is looked up first, one that names no channel is a `BadId`. -/
theorem withInstance_comm {n : Nat} (id jd : Fin 4) (k : Fin n → Fin n → Result) :
    (withInstance n id fun i => withInstance n jd fun j => k i j) =
      withInstance n jd fun j => withInstance n id fun i => k i j := by
  by_cases hid : id.val < n <;> by_cases hjd : jd.val < n
  · simp only [withInstance_some (i := ⟨id.val, hid⟩) rfl, withInstance_some (i := ⟨jd.val, hjd⟩) rfl]
  · simp only [withInstance_some (i := ⟨id.val, hid⟩) rfl, withInstance_none hjd]
  · simp only [withInstance_none hid, withInstance_some (i := ⟨jd.val, hjd⟩) rfl]
  · simp only [withInstance_none hid, withInstance_none hjd]

theorem andThen_withInstance {n : Nat} (id : Fin 4) (k : Fin n → Result) (r : State → Result) :
    andThen (withInstance n id k) r = withInstance n id fun i => andThen (k i) r := by
  by_cases hid : id.val < n
  · rw [withInstance_some (i := ⟨id.val, hid⟩) rfl, withInstance_some (i := ⟨id.val, hid⟩) rfl]
  · rw [withInstance_none hid, withInstance_none hid, andThen_fault]

section ChannelCommand
variable {n : Nat} {ready : State → Bool} {v w : Fin n → State → State} {s : State}
  (hv : ∀ ch, (v ch s).port = s.port ∧ ready (v ch s) = ready s)
include hv

/-- A write that keeps the port and the flag leaves the second command its guards, so both writes stand behind
one set. -/
theorem andThen_channelCommand (id jd : Fin 4) :
    andThen (channelCommand n ready v id s) (channelCommand n ready w jd) =
      requirePort .host s (require (ready s) .uninitialised
        (withInstance n id fun i => withInstance n jd fun j => .next (w j (v i s)))) := by
  by_cases hp : s.port = .host
  · have hport (i : Fin n) : (v i s).port = .host := (hv i).left.trans hp
    have hready (i : Fin n) : ready (v i s) = ready s := (hv i).right
    cases hr : ready s with
    | true => simp only [channelCommand, requirePort_self hp, requirePort_self (hport _), hready, hr, require_true,
        andThen_withInstance, andThen_next]
    | false => simp only [channelCommand, requirePort_self hp, hr, require_false, andThen_fault]
  · simp only [channelCommand, requirePort_other hp, andThen_fault]

/-- The last command to a channel wins if its write covers that of the first. -/
theorem channelCommand_absorbs (id : Fin 4) (hwrite : ∀ ch, w ch (v ch s) = w ch s) :
    andThen (channelCommand n ready v id s) (channelCommand n ready w id) = channelCommand n ready w id s := by
  have hboth : (withInstance n id fun i => withInstance n id fun j => .next (w j (v i s))) =
      withInstance n id fun ch => .next (w ch s) :=
    withInstance_congr fun i hi => by rw [withInstance_some hi, hwrite]
  rw [andThen_channelCommand hv, hboth, channelCommand]

/-- Commands to different channels commute if their writes do, verdicts included. -/
theorem channelCommand_comm {id jd : Fin 4} (hw : ∀ ch, (w ch s).port = s.port ∧ ready (w ch s) = ready s)
    (hne : id ≠ jd) (hwrite : ∀ i j, i ≠ j → w j (v i s) = v i (w j s)) :
    andThen (channelCommand n ready v id s) (channelCommand n ready w jd) =
      andThen (channelCommand n ready w jd s) (channelCommand n ready v id) := by
  have hboth : (withInstance n id fun i => withInstance n jd fun j => .next (w j (v i s))) =
      withInstance n jd fun j => withInstance n id fun i => .next (v i (w j s)) := by
    rw [withInstance_comm]
    refine withInstance_congr fun j hj => withInstance_congr fun i hi => ?_
    rw [hwrite i j fun h => hne (Fin.ext (hi.symm.trans (h ▸ hj)))]
  rw [andThen_channelCommand hv, andThen_channelCommand hw, hboth]

end ChannelCommand

theorem motorWrite_keeps_guards (percent : Int) (m : Fin 2) (s : State) :
    (motorWrite percent m s).port = s.port ∧ (motorWrite percent m s).motor.init = s.motor.init := ⟨rfl, rfl⟩

theorem servoWrite_keeps_guards (degree : Int) (ch : Fin 3) (s : State) :
    (servoWrite degree ch s).port = s.port ∧ (servoWrite degree ch s).servo.init = s.servo.init := ⟨rfl, rfl⟩

theorem motorWrite_absorbs (p q : Int) (m : Fin 2) (s : State) :
    motorWrite q m (motorWrite p m s) = motorWrite q m s := by
  simp only [motorWrite, Pwm.command_command_same]

theorem servoWrite_absorbs (p q : Int) (ch : Fin 3) (s : State) :
    servoWrite q ch (servoWrite p ch s) = servoWrite q ch s := by
  simp only [servoWrite, Pwm.command_command_same]

theorem motorWrite_comm (p q : Int) {i j : Fin 2} (h : i ≠ j) (s : State) :
    motorWrite q j (motorWrite p i s) = motorWrite p i (motorWrite q j s) := by
  simp only [motorWrite, Pwm.command_comm _ _ h]

theorem servoWrite_comm (p q : Int) {i j : Fin 3} (h : i ≠ j) (s : State) :
    servoWrite q j (servoWrite p i s) = servoWrite p i (servoWrite q j s) := by
  simp only [servoWrite, Pwm.command_comm _ _ h]

/-- Settles O38: a write to a channel covers an earlier one to it, writes to two channels commute, and neither touches
the guards. -/
theorem lastCommandWinsAndChannelsCommute : Obligations.LastCommandWinsAndChannelsCommute := by
  simp only [Obligations.LastCommandWinsAndChannelsCommute, exec_mduty_eq_channelCommand, exec_smove_eq_channelCommand]
  refine ⟨fun id p q s => ?_, fun id p q s => ?_, fun id jd p q s hne => ?_, fun id jd p q s hne => ?_⟩
  · exact channelCommand_absorbs (motorWrite_keeps_guards p · s) id (motorWrite_absorbs p q · s)
  · exact channelCommand_absorbs (servoWrite_keeps_guards p · s) id (servoWrite_absorbs p q · s)
  · exact channelCommand_comm (motorWrite_keeps_guards p · s) (motorWrite_keeps_guards q · s) hne
      fun _ _ h => motorWrite_comm p q h s
  · exact channelCommand_comm (servoWrite_keeps_guards p · s) (servoWrite_keeps_guards q · s) hne
      fun _ _ h => servoWrite_comm p q h s

/-! ### A duty in effect -/

/-- R125, for any configuration: what a completed MDUTY leaves in its compare register, and what it keeps of timer M. -/
theorem mdutyUnder_cmp (c : Config) {id : Fin 4} (percent : Int) {s : State} {m : Fin 2} (hp : s.port = .host)
    (hinit : s.motor.init = true) (hm : m.val = id.val) :
    ∃ t, mdutyUnder c id percent s = .next t ∧ t.motor.cmp[m] = motorCompare c (storeSigned percent) ∧
      t.motor.cen = s.motor.cen ∧ t.motor.period = s.motor.period :=
  ⟨_, mdutyUnder_eq c percent hp hinit hm, set_same _ m _, rfl, rfl⟩

/-- Under the recommended period the ticks of an even product are that many hundredths of the period (R133). -/
theorem hundred_mul_motorTicks {c : Config} {percent : Int} (hfull : c.FullScale)
    (heven : c.ticksPerUs * percent % 2 = 0) : 100 * motorTicks c percent = c.motorPeriod * percent := by
  have hhalf : 2 * motorTicks c percent = c.ticksPerUs * percent := two_mul_tdiv_two_of_even heven
  calc 100 * motorTicks c percent = 50 * (2 * motorTicks c percent) := by ring
    _ = c.ticksPerUs * 50 * percent := by rw [hhalf]; ring
    _ = c.motorPeriod * percent := by rw [hfull, motorTicks_hundred]

/-- Settles O44: the boundary makes the ticks of the duty active, and in [0,100] they fit the register. -/
theorem dutyIsTheFractionOfThePeriod : Obligations.DutyIsTheFractionOfThePeriod := by
  intro c id percent s m hfull h0 h100 heven hp hinit hcen hperiod hm
  obtain ⟨t, ht, hcmp, hcent, hper⟩ := mdutyUnder_cmp c percent hp hinit hm
  have hrange : inArgRange percent = true := by
    rw [inArgRange, Bool.and_eq_true, decide_eq_true_eq, decide_eq_true_eq]
    omega
  have hlt : motorTicks c percent < 4294967296 := calc
    motorTicks c percent ≤ motorTicks c 100 := motorTicks_mono h100
    _ = c.motorPeriod := hfull.symm
    _ < 4294967296 := (motorPeriod_range c).right
  refine ⟨t, ht, ?_⟩
  rw [boundary_motor_of_cen (hcent.trans hcen), Pwm.latch_period, Pwm.latch_cmpAct, hper, hperiod, hcmp,
    motorCompare_toNat c hrange, trunc_of_range (motorTicks_nonneg h0) hlt]
  exact hundred_mul_motorTicks hfull heven

/-- Settles O36: the register holds `trunc_32` of the ticks, for 150, -1 and 1 percent. -/
theorem dutyIsNotClamped : Obligations.DutyIsNotClamped := by
  intro s hp hinit
  have h150 : motorCompare Config.cfgEx (storeSigned 150) = 1875#32 := by decide
  have hminus : motorCompare Config.cfgEx (storeSigned (-1)) = 0xFFFFFFF4#32 := by decide
  have hone : motorCompare Config.cfgEx (storeSigned 1) = 12#32 := by decide
  obtain ⟨t₁, ht₁, hcmp₁, -⟩ := mdutyUnder_cmp Config.cfgEx (id := 0) (m := 0) 150 hp hinit rfl
  obtain ⟨t₂, ht₂, hcmp₂, -⟩ := mdutyUnder_cmp Config.cfgEx (id := 1) (m := 1) (-1) hp hinit rfl
  obtain ⟨t₃, ht₃, hcmp₃, -⟩ := mdutyUnder_cmp Config.cfgEx (id := 1) (m := 1) 1 hp hinit rfl
  exact ⟨⟨t₁, ht₁, hcmp₁.trans h150⟩, ⟨t₂, ht₂, hcmp₂.trans hminus⟩, ⟨t₃, ht₃, hcmp₃.trans hone⟩⟩

end Sys2Proof.Machine
end

section
/-!
PROOFS. The verdicts (R161, R163): a fault or a refusal ends the run, because a run that is finished can be prolonged to
any length without one, and a command whose unit is not initialised faults.
-/

namespace Sys2Proof.Machine

/-! ### Runs in two parts -/

theorem run_add (n k : Nat) (s : State) : core.run (n + k) s = andThen (core.run n s) (core.run k) := by
  induction n generalizing s with
  | zero =>
    rw [Nat.zero_add]
    rfl
  | succ n ih =>
    rw [Nat.succ_add, run_succ, run_succ]
    cases step s with
    | next u => exact ih u
    | fault f => rfl
    | refused r => rfl

/-- With nothing outstanding a run of any length changes nothing (R192, log 3). -/
theorem run_idle {s : State} (h : s.inputs = []) (n : Nat) : core.run n s = .next s := by
  induction n with
  | zero => rfl
  | succ n ih =>
    rw [run_succ, step_idle h]
    exact ih

/-! ### Verdicts -/

/-- No prefix of a finished run and no run longer than it meets a verdict. -/
theorem FinishedRun.run_next {s t : State} (h : FinishedRun s t) (n : Nat) : ∃ u, core.run n s = .next u := by
  obtain ⟨m, hm, hidle⟩ := h
  have hlong : andThen (core.run n s) (core.run m) = .next t := by
    rw [← run_add, Nat.add_comm, run_add, hm]
    exact run_idle hidle n
  obtain ⟨u, hu, -⟩ := andThen_eq_next.mp hlong
  exact ⟨u, hu⟩

/-- What R163 says of a fault and of a refusal alike. -/
theorem run_ends_of_ne_next {n : Nat} {s : State} {r : Result} (hr : ∀ u, r ≠ .next u) (h : core.run n s = r) :
    (∀ k, core.run (n + k) s = r) ∧ ¬ ∃ t, FinishedRun s t := by
  constructor
  · intro k
    rw [run_add, h]
    cases r with
    | next u => exact absurd rfl (hr u)
    | fault f => rfl
    | refused e => rfl
  · rintro ⟨t, ht⟩
    obtain ⟨u, hu⟩ := ht.run_next n
    exact hr u (h.symm.trans hu)

/-- Settles O12: neither verdict is a next state. -/
theorem verdictsEndTheRun : Obligations.VerdictsEndTheRun := fun _ _ =>
  ⟨fun _ => run_ends_of_ne_next nofun, fun _ => run_ends_of_ne_next nofun⟩

/-- Settles O16: on its own port a command meets the guard of its unit's flag, which is false. -/
theorem uninitialisedUnitsFault : Obligations.UninitialisedUnitsFault :=
  ⟨fun _ _ hinit hp => exec_uninitialised hp hinit,
    fun _ _ _ hinit hp => exec_uninitialised hp hinit,
    fun _ _ _ hinit hp => exec_uninitialised hp hinit,
    fun _ _ _ hinit hp => exec_uninitialised hp hinit,
    fun _ => exec_uninitialised rfl resetFlagsAndEnables.left⟩

end Sys2Proof.Machine
end

section
/-!
PROOFS. Finished runs (R58, R192, R131): taking an event neither reads nor writes what is outstanding, so as many steps
as there are outstanding events are those events played, and a finished run is no other than that one; and the boundary
of a stopped timer (log 7).
-/

namespace Sys2Proof.Machine

/-! ### Taking an event does not depend on the events behind it -/

/-- `s` with other events outstanding. -/
def State.withInputs (w : List Event) (s : State) : State := { s with inputs := w }

theorem andThen_require (c : Bool) (f : Fault) (r : Result) (k : State → Result) :
    andThen (require c f r) k = require c f (andThen r k) := by
  cases c <;> rfl

/-- A command writes the same next state, or meets the same fault, whatever is outstanding. -/
theorem exec_withInputs (i : Instr) (w : List Event) (s : State) :
    exec i (s.withInputs w) = andThen (exec i s) fun t => .next (t.withInputs w) := by
  cases i with
  | qinit | minit | sinit =>
    simp only [exec_qinit, execQinit, exec_minit, minitUnder, exec_sinit, sinitUnder, requirePort, andThen_require,
      andThen_next]
    rfl
  | qedge id raw =>
    simp only [exec_qedge, qedgeUnder, requirePort, requireQdec, andThen_require, andThen_withInstance, andThen_next]
    rfl
  | qread id =>
    simp only [exec_qread, execQread, requirePort, requireQdec, andThen_require, andThen_withInstance, andThen_next]
    rfl
  | mduty id percent =>
    simp only [exec_mduty, mdutyUnder, requirePort, requireMotor, andThen_require, andThen_withInstance, andThen_next]
    rfl
  | smove id degree =>
    simp only [exec_smove, smoveUnder, requirePort, requireServo, andThen_require, andThen_withInstance, andThen_next]
    rfl

theorem boundaryEnabled_withInputs (tm : TimerId) (w : List Event) (s : State) :
    boundaryEnabled tm (s.withInputs w) = boundaryEnabled tm s := by
  cases tm <;> rfl

/-- A boundary of a stopped timer is dropped (log 7). -/
theorem boundary_of_not_enabled {tm : TimerId} {s : State} (h : boundaryEnabled tm s = false) : boundary tm s = s := by
  cases tm with
  | motor => exact if_neg (Bool.eq_false_iff.mp h)
  | servo => exact if_neg (Bool.eq_false_iff.mp h)

theorem boundary_withInputs (tm : TimerId) (w : List Event) (s : State) :
    boundary tm (s.withInputs w) = (boundary tm s).withInputs w := by
  obtain ⟨hoff, h⟩ | ⟨rfl, hcen, h⟩ | ⟨rfl, hcen, h⟩ := boundary_cases tm s
  · rw [h]
    exact boundary_of_not_enabled ((boundaryEnabled_withInputs tm w s).trans hoff)
  · rw [h]
    exact boundary_motor_of_cen hcen
  · rw [h]
    exact boundary_servo_of_cen hcen

theorem deliver_withInputs (e : Event) (w : List Event) (s : State) :
    deliver e (s.withInputs w) = andThen (deliver e s) fun t => .next (t.withInputs w) := by
  cases e with
  | command p v =>
    cases hv : decode v with
    | ok i =>
      rw [deliver_command _ hv, deliver_command _ hv]
      exact exec_withInputs i w { s with port := p }
    | error why => simp only [deliver, hv, andThen_refused]
  | boundary tm => exact congrArg Host.Outcome.next (boundary_withInputs tm w s)

/-! ### Runs that take every event -/

theorem play_inputs {w : List Event} {s t : State} (h : play w s = .next t) : t.inputs = s.inputs := by
  induction w generalizing s with
  | nil =>
    cases h
    rfl
  | cons e w ih =>
    obtain ⟨u, hu, hplay⟩ := play_cons_next.mp h
    exact (ih hplay).trans (deliver_inputs hu)

/-- As many steps as there are outstanding events take those events one after the other, verdicts included. -/
theorem run_length_withInputs (w : List Event) (s : State) :
    core.run w.length (s.withInputs w) = play w (s.withInputs []) := by
  induction w generalizing s with
  | nil => rfl
  | cons e w ih =>
    have hstep : step (s.withInputs (e :: w)) = deliver e (s.withInputs w) := step_event rfl
    rw [List.length_cons, run_succ, hstep, play_cons, deliver_withInputs, deliver_withInputs e []]
    cases deliver e s with
    | next u => exact ih u
    | fault f => rfl
    | refused r => rfl

theorem run_inputs_length (s : State) : core.run s.inputs.length s = play s.inputs (s.withInputs []) :=
  run_length_withInputs s.inputs s

/-- A run that left nothing outstanding can be prolonged to any length. -/
theorem run_add_of_idle {n : Nat} {s t : State} (h : core.run n s = .next t) (hidle : t.inputs = []) (k : Nat) :
    core.run (n + k) s = .next t := by
  rw [run_add, h]
  exact run_idle hidle k

/-- Runs that left nothing outstanding end in the same state, however many steps they took. -/
theorem run_idle_unique {m n : Nat} {s t u : State} (ht : core.run m s = .next t) (hu : core.run n s = .next u)
    (htidle : t.inputs = []) (huidle : u.inputs = []) : t = u := by
  have heq : (.next t : Result) = .next u := calc
    .next t = core.run (m + n) s := (run_add_of_idle ht htidle n).symm
    _ = core.run (n + m) s := by rw [Nat.add_comm]
    _ = .next u := run_add_of_idle hu huidle m
  cases heq
  rfl

/-- Settles O11: a finished run has no verdict in its first steps, as many as events were outstanding, and those steps
are the events played, after which nothing moves. -/
theorem finishedRunsTakeEveryEvent : Obligations.FinishedRunsTakeEveryEvent := by
  intro s t
  change FinishedRun s t ↔ play s.inputs (s.withInputs []) = .next t
  constructor
  · intro h
    obtain ⟨u, hu⟩ := h.run_next s.inputs.length
    obtain ⟨n, ht, hidle⟩ := h
    have hplay : play s.inputs (s.withInputs []) = .next u := (run_inputs_length s).symm.trans hu
    rw [run_idle_unique ht hu hidle (play_inputs hplay)]
    exact hplay
  · intro h
    exact ⟨s.inputs.length, (run_inputs_length s).trans h, play_inputs h⟩

/-! ### Boundaries of a stopped timer -/

theorem step_boundary_of_not_enabled {tm : TimerId} {s : State} {rest : List Event}
    (hin : s.inputs = .boundary tm :: rest) (h : boundaryEnabled tm s = false) :
    step s = .next (s.withInputs rest) := by
  rw [step_event hin]
  exact congrArg Host.Outcome.next (boundary_of_not_enabled ((boundaryEnabled_withInputs tm rest s).trans h))

/-- Settles O42: a counter enable of 0 is not 1, so the boundary is not enabled. -/
theorem disabledBoundaryChangesNothing : Obligations.DisabledBoundaryChangesNothing := by
  intro s rest
  refine ⟨fun hin hcen => step_boundary_of_not_enabled hin ?_, fun hin hcen => step_boundary_of_not_enabled hin ?_⟩
  · simp [boundaryEnabled, hcen]
  · simp [boundaryEnabled, hcen]

end Sys2Proof.Machine
end
